-- ==== Sys2Proof/Config.lean ====
section
/-! DEFINITION. What is fixed for this machine: the parameters of 00_scope.md rule R8. The spec leaves no value of the core
open (93_implementation_defined.md, Part 1), so there is no free value here. -/

namespace Sys2Proof.Config

/-- `XLEN` of R8: the register and data width in bits. -/
abbrev xlen : Nat := 8

/-- `NREGS` of R8: the number of general registers. -/
abbrev numRegs : Nat := 16

/-- `MEMSIZE` of R8: the number of bytes of memory. -/
abbrev memSize : Nat := 256

/-- `AWIDTH` and `PCWIDTH` of R8: the width of an address and of `pc`. -/
abbrev addrWidth : Nat := 8

/-- `IRWIDTH` and `ILEN` of R8: the width of `ir` and of every instruction. -/
abbrev instrWidth : Nat := 16

/-- `MAX_PROGRAM_WORDS` of R8, which is MEMSIZE / 2. -/
abbrev maxProgramWords : Nat := 128

/-- `PROGRAM_BASE` of R8: the load address and the entry point. -/
abbrev programBase : Nat := 0

end Sys2Proof.Config
end

