-- ==== Sys2Proof/Word.lean ====
section
/-! DEFINITION. The machine's word types (00_scope.md rules R8 and R10): every value is an unsigned bit pattern of its width. -/

namespace Sys2Proof

/-- An 8-bit register or memory value (R8 `XLEN`). -/
abbrev Byte := BitVec 8

/-- An 8-bit address; every value of it is an address of memory (R42). -/
abbrev Addr := BitVec 8

/-- A 16-bit instruction word (R60). -/
abbrev Word := BitVec 16

/-- A 4-bit register field: the index of one of the sixteen registers, in range by construction (R22). -/
abbrev Reg := BitVec 4

/-- The 3-bit count of ROTATE, 0 to 7 (R64). -/
abbrev Count := BitVec 3

end Sys2Proof
end

