-- ==== Sys2Proof/Asm.lean ====
section
/-! DEFINITION. One line of the spec's assembly (30_encoding.md rules R69 and R71) as a source file writes it: the operands are
plain numbers, and Sys2Proof/WellFormed.lean says which lines are legal. -/

namespace Sys2Proof

/-- The syntax column of R69 and the pseudo-instructions of R71, operands in the order they are written. -/
inductive AsmLine where
  /-- `LOAD rd, [addr8]` -/
  | load (rd addr8 : Nat)
  /-- `SET rd, imm8` -/
  | set (rd imm8 : Nat)
  /-- `STORE rs, [addr8]` -/
  | store (rs addr8 : Nat)
  /-- `MOVE rd, rs` -/
  | move (rd rs : Nat)
  /-- `ADD rd, ra, rb` -/
  | add (rd ra rb : Nat)
  /-- `OR rd, ra, rb` -/
  | or (rd ra rb : Nat)
  /-- `AND rd, ra, rb` -/
  | and (rd ra rb : Nat)
  /-- `XOR rd, ra, rb` -/
  | xor (rd ra rb : Nat)
  /-- `ROR r, n` -/
  | ror (r n : Nat)
  /-- `BEQ r, target8` -/
  | beq (r target8 : Nat)
  /-- `HALT` -/
  | halt
  /-- `.word w`: any 16-bit word -/
  | word (w : Nat)
  /-- `JMP target8`, a pseudo-instruction -/
  | jmp (target8 : Nat)
  /-- `NOP`, a pseudo-instruction -/
  | nop
  /-- `CLR rd`, a pseudo-instruction -/
  | clr (rd : Nat)
  deriving DecidableEq, Repr

end Sys2Proof
end

