-- ==== Sys2Proof/Syntax.lean ====
section
/-! DEFINITION. The instructions: one constructor per row of spec/opcode_table.json (30_encoding.md rule R66). -/

namespace Sys2Proof

/-- The sixteen rows of the opcode map (R66), in its order: eleven instructions and five undefined opcode values, each with
the operands its format gives it (R63). The bits a format marks ignored are no operand (R65). Destinations come first, as in
the spec's assembly (R69). Every operand is in range by its type (R68). -/
inductive Instr where
  /-- Opcode 0x0, undefined: fault-halt (R143). -/
  | undef0
  /-- Opcode 0x1, LOAD-FROM-MEMORY (R100). -/
  | load (d : Reg) (addr8 : Byte)
  /-- Opcode 0x2, SET-IMMEDIATE (R101). -/
  | set (d : Reg) (imm8 : Byte)
  /-- Opcode 0x3, STORE-TO-MEMORY (R102). -/
  | store (s : Reg) (addr8 : Byte)
  /-- Opcode 0x4, MOVE (R103): copies `x[s]` into `x[d]`. In the word the source is the higher nibble. -/
  | move (d s : Reg)
  /-- Opcode 0x5, ADD (R121). -/
  | add (d a b : Reg)
  /-- Opcode 0x6, undefined: fault-halt (R143). -/
  | undef6
  /-- Opcode 0x7, OR (R122). -/
  | or (d a b : Reg)
  /-- Opcode 0x8, AND (R123). -/
  | and (d a b : Reg)
  /-- Opcode 0x9, XOR (R124). -/
  | xor (d a b : Reg)
  /-- Opcode 0xA, ROTATE right (R125). -/
  | ror (r : Reg) (n : Count)
  /-- Opcode 0xB, BRANCH-IF-EQUAL (R140). -/
  | beq (r : Reg) (target8 : Byte)
  /-- Opcode 0xC, HALT (R142). -/
  | halt
  /-- Opcode 0xD, undefined: fault-halt (R143). -/
  | undefD
  /-- Opcode 0xE, undefined: fault-halt (R143). -/
  | undefE
  /-- Opcode 0xF, undefined: fault-halt (R143). -/
  | undefF
  deriving DecidableEq, Repr

/-- The row's mnemonic, as spec/opcode_table.json spells it. -/
def Instr.mnemonic : Instr → String
  | .undef0 => "UNDEFINED_0x0"
  | .load _ _ => "LOAD"
  | .set _ _ => "SET"
  | .store _ _ => "STORE"
  | .move _ _ => "MOVE"
  | .add _ _ _ => "ADD"
  | .undef6 => "UNDEFINED_0x6"
  | .or _ _ _ => "OR"
  | .and _ _ _ => "AND"
  | .xor _ _ _ => "XOR"
  | .ror _ _ => "ROR"
  | .beq _ _ => "BEQ"
  | .halt => "HALT"
  | .undefD => "UNDEFINED_0xD"
  | .undefE => "UNDEFINED_0xE"
  | .undefF => "UNDEFINED_0xF"

/-- The row's value of `ir[15:12]` (R66). -/
def Instr.opcode : Instr → BitVec 4
  | .undef0 => 0x0#4
  | .load _ _ => 0x1#4
  | .set _ _ => 0x2#4
  | .store _ _ => 0x3#4
  | .move _ _ => 0x4#4
  | .add _ _ _ => 0x5#4
  | .undef6 => 0x6#4
  | .or _ _ _ => 0x7#4
  | .and _ _ _ => 0x8#4
  | .xor _ _ _ => 0x9#4
  | .ror _ _ => 0xA#4
  | .beq _ _ => 0xB#4
  | .halt => 0xC#4
  | .undefD => 0xD#4
  | .undefE => 0xE#4
  | .undefF => 0xF#4

/-- The bits of the row's format that decode never reads (R63, R65), as a mask. -/
def Instr.ignoredMask : Instr → Word
  | .undef0 | .undef6 | .undefD | .undefE | .undefF | .halt => 0x0FFF#16
  | .move _ _ => 0x0F00#16
  | .ror _ _ => 0x008F#16
  | .load _ _ | .set _ _ | .store _ _ | .beq _ _ => 0x0000#16
  | .add _ _ _ | .or _ _ _ | .and _ _ _ | .xor _ _ _ => 0x0000#16

/-! The pseudo-instructions of 30_encoding.md rule R71: spellings of core instructions, no constructors of their own. -/

/-- `JMP target8` is `BEQ r0, target8` (R71). -/
def Instr.jmp (target8 : Byte) : Instr := .beq 0#4 target8

/-- `NOP` is `MOVE r0, r0` (R71). -/
def Instr.nop : Instr := .move 0#4 0#4

/-- `CLR rd` is `SET rd, 0x00` (R71). -/
def Instr.clr (d : Reg) : Instr := .set d 0#8

end Sys2Proof
end

