-- ==== Sys2Proof/WellFormed.lean ====
section
/-! DEFINITION. What must be checked before a thing means anything. A term of `Instr` needs no check: its operand types hold
exactly the values the fields of the encoding can hold (30_encoding.md rule R68, "in range by construction"). A source line
carries plain numbers and is checked here (R69), and a program is checked against memory's size (70_reset_and_hazards.md
rule R181). -/

namespace Sys2Proof

/-- A register is written `r0` to `r15` (R69). -/
def isReg (n : Nat) : Bool := decide (n < Config.numRegs)

/-- An address, an immediate and a target are one byte (R64). -/
def isByte (n : Nat) : Bool := decide (n < 256)

/-- A rotate count is 0 to 7 (R69). -/
def isCount (n : Nat) : Bool := decide (n < 8)

/-- The operand of `.word` is any 16-bit word (R69). -/
def isWord (n : Nat) : Bool := decide (n < 65536)

/-- A source line whose operands are all in range (R64, R69). -/
def AsmLine.wellFormed : AsmLine → Bool
  | .load rd addr8 => isReg rd && isByte addr8
  | .set rd imm8 => isReg rd && isByte imm8
  | .store rs addr8 => isReg rs && isByte addr8
  | .move rd rs => isReg rd && isReg rs
  | .add rd ra rb => isReg rd && isReg ra && isReg rb
  | .or rd ra rb => isReg rd && isReg ra && isReg rb
  | .and rd ra rb => isReg rd && isReg ra && isReg rb
  | .xor rd ra rb => isReg rd && isReg ra && isReg rb
  | .ror r n => isReg r && isCount n
  | .beq r target8 => isReg r && isByte target8
  | .halt => true
  | .word w => isWord w
  | .jmp target8 => isByte target8
  | .nop => true
  | .clr rd => isReg rd

/-- A program that memory can hold: at most 128 words (R181). -/
def programFits (words : List Word) : Bool := decide (words.length ≤ Config.maxProgramWords)

end Sys2Proof
end

