-- ==== Sys2Proof/Decode.lean ====
section
/-! DEFINITION. Decoding and encoding (30_encoding.md rules R60 to R70): field extraction, the decoder, the encoder and the
opcode table as mask-and-match rows. -/

namespace Sys2Proof

/-! ## Field extraction (R61) -/

/-- `high_byte = w[15:8]`. -/
def highByte (w : Word) : Byte := w.extractLsb' 8 8

/-- `low_byte = w[7:0]`. -/
def lowByte (w : Word) : Byte := w.extractLsb' 0 8

/-- The low nibble of a byte, bits 0 to 3. -/
def lowNibble (y : Byte) : BitVec 4 := y.extractLsb' 0 4

/-- The high nibble of a byte, bits 4 to 7 shifted right into bits 0 to 3. -/
def highNibble (y : Byte) : BitVec 4 := y.extractLsb' 4 4

/-- The opcode, `w[15:12]` (R62). -/
def opcode (w : Word) : BitVec 4 := highNibble (highByte w)

/-- `w[11:8]`, the low nibble of `high_byte`. -/
def fieldA (w : Word) : Reg := lowNibble (highByte w)

/-- `w[7:4]`, the high nibble of `low_byte`. -/
def fieldB (w : Word) : Reg := highNibble (lowByte w)

/-- `w[3:0]`, the low nibble of `low_byte`. -/
def fieldC (w : Word) : Reg := lowNibble (lowByte w)

/-- The count of ROTATE: the high nibble of `low_byte`, masked to its low 3 bits, which is `w[6:4]` (R64). -/
def fieldCount (w : Word) : Count := (highNibble (lowByte w)).extractLsb' 0 3

/-! ## Decode -/

/-- Decode is total: the four bits `w[15]`, `w[14]`, `w[13]`, `w[12]` select one row of R66, and the row's format (R63) says
which fields are read. No row falls through to another, and no bit a format marks ignored is read (R65). -/
def decode (w : Word) : Instr :=
  match w.getLsbD 15, w.getLsbD 14, w.getLsbD 13, w.getLsbD 12 with
  | false, false, false, false => .undef0
  | false, false, false, true => .load (fieldA w) (lowByte w)
  | false, false, true, false => .set (fieldA w) (lowByte w)
  | false, false, true, true => .store (fieldA w) (lowByte w)
  | false, true, false, false => .move (fieldC w) (fieldB w)
  | false, true, false, true => .add (fieldA w) (fieldB w) (fieldC w)
  | false, true, true, false => .undef6
  | false, true, true, true => .or (fieldA w) (fieldB w) (fieldC w)
  | true, false, false, false => .and (fieldA w) (fieldB w) (fieldC w)
  | true, false, false, true => .xor (fieldA w) (fieldB w) (fieldC w)
  | true, false, true, false => .ror (fieldA w) (fieldCount w)
  | true, false, true, true => .beq (fieldA w) (lowByte w)
  | true, true, false, false => .halt
  | true, true, false, true => .undefD
  | true, true, true, false => .undefE
  | true, true, true, true => .undefF

/-- The word that two consecutive bytes form: the first holds bits 15:8 (20_memory.md rule R43). -/
def wordOfBytes (hi lo : Byte) : Word := hi ++ lo

/-- Why a list of bytes holds no instruction. No 16-bit word is a reason (R68). -/
inductive DecodeError where
  /-- There is no byte. -/
  | noBytes
  /-- There is one byte, half of an instruction word (R60). -/
  | halfWord
  deriving DecidableEq, Repr

/-- The instruction at the head of a list of bytes and the bytes after it. -/
def decodeBytes : List Byte → Except DecodeError (Instr × List Byte)
  | [] => .error .noBytes
  | [_] => .error .halfWord
  | hi :: lo :: rest => .ok (decode (wordOfBytes hi lo), rest)

/-- The host's reading of one table row's bits: bit 0 of `w` is the least significant bit of the word, bits from `nbits` up
are 0, and the word's bytes lie high byte first (R43). -/
def decodeTableWord (nbits w : Nat) : Option Instr :=
  let word : Word := BitVec.ofNat Config.instrWidth (w % 2 ^ nbits)
  match decodeBytes [highByte word, lowByte word] with
  | .ok (i, _) => some i
  | .error _ => none

/-! ## Encode -/

/-- Format RM (R63): opcode, register, byte. -/
def formatRM (op : BitVec 4) (r : Reg) (byte : Byte) : Word := op ++ r ++ byte

/-- Format MV (R63): opcode, ignored bits, source, destination. -/
def formatMV (op : BitVec 4) (s d : Reg) : Word := op ++ 0x0#4 ++ s ++ d

/-- Format RRR (R63): opcode, destination, first source, second source. -/
def formatRRR (op : BitVec 4) (d a b : Reg) : Word := op ++ d ++ a ++ b

/-- Format ROT (R63): opcode, register, an ignored bit, count, ignored bits. -/
def formatROT (op : BitVec 4) (r : Reg) (n : Count) : Word := op ++ r ++ 0#1 ++ n ++ 0x0#4

/-- Format N (R63): opcode, ignored bits. -/
def formatN (op : BitVec 4) : Word := op ++ 0x000#12

/-- The word of an instruction: its opcode (R66) in its format (R63). The assembler emits every ignored bit as 0 (R70). -/
def encode : Instr → Word
  | .undef0 => formatN 0x0#4
  | .load d addr8 => formatRM 0x1#4 d addr8
  | .set d imm8 => formatRM 0x2#4 d imm8
  | .store s addr8 => formatRM 0x3#4 s addr8
  | .move d s => formatMV 0x4#4 s d
  | .add d a b => formatRRR 0x5#4 d a b
  | .undef6 => formatN 0x6#4
  | .or d a b => formatRRR 0x7#4 d a b
  | .and d a b => formatRRR 0x8#4 d a b
  | .xor d a b => formatRRR 0x9#4 d a b
  | .ror r n => formatROT 0xA#4 r n
  | .beq r target8 => formatRM 0xB#4 r target8
  | .halt => formatN 0xC#4
  | .undefD => formatN 0xD#4
  | .undefE => formatN 0xE#4
  | .undefF => formatN 0xF#4

/-- The two bytes of an instruction as memory holds them (R43). -/
def encodeBytes (i : Instr) : List Byte := [highByte (encode i), lowByte (encode i)]

/-! ## The opcode table -/

/-- One row of spec/opcode_table.json: the words whose bits under `mask` are `pattern`. -/
structure OpcodeRow where
  mnemonic : String
  pattern : Word
  mask : Word
  deriving DecidableEq, Repr

/-- Whether a word belongs to a row. -/
def OpcodeRow.matches (row : OpcodeRow) (w : Word) : Bool := w &&& row.mask == row.pattern

/-- The sixteen rows of spec/opcode_table.json (R66), mask and match as the table gives them. -/
def opcodeTable : List OpcodeRow :=
  [⟨"UNDEFINED_0x0", 0x0000#16, 0xF000#16⟩, ⟨"LOAD", 0x1000#16, 0xF000#16⟩,
   ⟨"SET", 0x2000#16, 0xF000#16⟩, ⟨"STORE", 0x3000#16, 0xF000#16⟩,
   ⟨"MOVE", 0x4000#16, 0xF000#16⟩, ⟨"ADD", 0x5000#16, 0xF000#16⟩,
   ⟨"UNDEFINED_0x6", 0x6000#16, 0xF000#16⟩, ⟨"OR", 0x7000#16, 0xF000#16⟩] ++
  [⟨"AND", 0x8000#16, 0xF000#16⟩, ⟨"XOR", 0x9000#16, 0xF000#16⟩,
   ⟨"ROR", 0xA000#16, 0xF000#16⟩, ⟨"BEQ", 0xB000#16, 0xF000#16⟩,
   ⟨"HALT", 0xC000#16, 0xF000#16⟩, ⟨"UNDEFINED_0xD", 0xD000#16, 0xF000#16⟩,
   ⟨"UNDEFINED_0xE", 0xE000#16, 0xF000#16⟩, ⟨"UNDEFINED_0xF", 0xF000#16, 0xF000#16⟩]

end Sys2Proof
end

