-- ==== Sys2Proof/Machine/State.lean ====
section
/-! DEFINITION. The state of one machine: exactly the parts that 10_state.md rule R20 lists, as plain data, and the reasons a
step can end without a next state. -/

namespace Sys2Proof.Machine

/-- The control unit's run state (R29; the spec's own register, log entry 2). -/
inductive RunState where
  /-- RUNNING: the machine may take a step. -/
  | running
  /-- HALTED: the last step executed HALT. -/
  | halted
  /-- FAULTED: the last step decoded an undefined opcode, a fault-halt. -/
  | faulted
  deriving DecidableEq, Repr

/-- Memory as the list of its cells that differ from what an unlisted address reads as, addresses rising. Machine/Ops.lean
says what an unlisted address reads as, and `Memory.wf` there says the form (log entry 3). -/
abbrev Memory := List Host.Cell

/-- The architectural state (R20). -/
structure State where
  /-- instruction_pointer, the byte address of the next instruction word (R25). -/
  pc : Addr
  /-- instruction_register, the most recently fetched word (R27). -/
  ir : Word
  /-- registers, `x[0]` to `x[15]` (R22). -/
  x : Vector Byte 16
  /-- memory, `mem[0]` to `mem[255]` (R40). -/
  mem : Memory
  /-- run_state (R29). -/
  runState : RunState
  deriving DecidableEq, Repr

/-- The machine as `create()` returns it (R180): every cell zero, RUNNING. Memory lists nothing, so each byte reads 0x00. -/
def State.reset : State where
  pc := 0#8
  ir := 0#16
  x := Vector.replicate 16 0#8
  mem := []
  runState := .running

/-- The ways the machine stops with a fault that is no state of it: none. A fault-halt is a state, run_state FAULTED
(60_exceptions.md rules R160, R161), and no step can fail otherwise (R84, 90_conflicts.md C6). -/
inductive Fault where
  deriving DecidableEq, Repr

/-- Why a step is refused. -/
inductive Refusal where
  /-- An instruction whose meaning is not written yet, by its mnemonic. Raised by no instruction of this model. Safe. -/
  | notModelled (mnemonic : String)
  /-- The `Refused` result of a step on a machine that is HALTED or FAULTED (40_fetch_decode_step.md rule R87). Raised by
  `step` before it fetches, never by an instruction. Safe: the spec gives that step no effect (log entry 4). -/
  | stepRefused
  deriving DecidableEq, Repr

/-- What the execute stage of one instruction answers. -/
abbrev Result := Host.Outcome State Fault Refusal

end Sys2Proof.Machine
end

