-- ==== Sys2Proof/Machine/Ops.lean ====
section
/-! DEFINITION. The named operations on the state that every instruction is built from: memory, registers, pc, fetch, and the
two ways to stop (00_scope.md rule R11). -/

namespace Sys2Proof.Machine

/-! ## Memory (20_memory.md) -/

/-- What an address that memory does not list reads as: `create` and `load` zero every byte (R180, R182). -/
def Memory.unlisted : Byte := 0#8

/-- Every cell lies at or above `low` and inside memory, addresses rise, and no cell holds what an unlisted address reads. -/
def Memory.wfFrom : Nat → Memory → Bool
  | _, [] => true
  | low, (a, v) :: rest =>
    decide (low ≤ a) && decide (a < Config.memSize) && (v != Memory.unlisted) && Memory.wfFrom (a + 1) rest

/-- The canonical form of memory: equal contents are equal lists. -/
def Memory.wf (m : Memory) : Bool := Memory.wfFrom 0 m

/-- The byte at an address (R40). -/
def Memory.read : Memory → Nat → Byte
  | [], _ => Memory.unlisted
  | (k, v) :: rest, a => if k = a then v else Memory.read rest a

/-- Memory without a cell for an address. -/
def Memory.remove : Memory → Nat → Memory
  | [], _ => []
  | (k, v) :: rest, a => if k = a then Memory.remove rest a else (k, v) :: Memory.remove rest a

/-- Memory with a cell put in its place by address. -/
def Memory.insert : Memory → Nat → Byte → Memory
  | [], a, v => [(a, v)]
  | (k, u) :: rest, a, v => if k < a then (k, u) :: Memory.insert rest a v else (a, v) :: (k, u) :: rest

/-- Memory with the byte at an address replaced; writing what an unlisted address reads as leaves no cell. -/
def Memory.write (m : Memory) (a : Nat) (v : Byte) : Memory :=
  if v = Memory.unlisted then m.remove a else (m.remove a).insert a v

/-- `MemRead(a, 1)` of R11. Every 8-bit address exists (R42), so no read fails. -/
def memRead (s : State) (a : Addr) : Byte := s.mem.read a.toNat

/-- `MemWrite(a, 1, v)` of R11. -/
def memWrite (s : State) (a : Addr) (v : Byte) : State :=
  { s with mem := s.mem.write a.toNat v }

/-! ## Registers (10_state.md R22, R23): sixteen, none hardwired -/

/-- `x[r]`. -/
def readReg (s : State) (r : Reg) : Byte := s.x[r.toNat]'r.isLt

/-- `x[r] <- v`. -/
def writeReg (s : State) (r : Reg) (v : Byte) : State :=
  { s with x := s.x.set r.toNat v r.isLt }

/-! ## The program counter and fetch -/

/-- `pc <- target` of R11. -/
def setPc (s : State) (target : Addr) : State := { s with pc := target }

/-- The word whose first byte is at `a`: `{mem[a], mem[(a + 1) mod 256]}` (R43, R45). At 255 the second byte is `mem[0]`
(log entry 1). Any `a`, odd or even (R46). -/
def wordAt (s : State) (a : Addr) : Word := wordOfBytes (memRead s a) (memRead s (a + 1#8))

/-- Fetch (40_fetch_decode_step.md rule R81): the word at `pc` goes to `ir`, and `pc` advances by 2 modulo 256. -/
def fetch (s : State) : State := { s with ir := wordAt s s.pc, pc := s.pc + 2#8 }

/-- A word put into memory at `a`, high byte first (R43). -/
def placeWord (s : State) (a : Addr) (w : Word) : State :=
  memWrite (memWrite s a (highByte w)) (a + 1#8) (lowByte w)

/-- Words put into memory one after another from `a`, 2 bytes each (R182). -/
def placeWords : State → Addr → List Word → State
  | s, _, [] => s
  | s, a, w :: rest => placeWords (placeWord s a w) (a + 2#8) rest

/-- A running machine: `run_state <- RUNNING` (R182). -/
def setRunning (s : State) : State := { s with runState := .running }

/-! ## Stopping (60_exceptions.md) -/

/-- `halt HALTED` of R11: `run_state <- HALTED`, everything else as fetch left it (R142). -/
def haltHalted (s : State) : State := { s with runState := .halted }

/-- `raise FaultHalt(ir)` of R11, the machine's only exceptional event (R160): `run_state <- FAULTED`. The offending word is
already in `ir` and `pc` is already past it, because fetch ran first (R161). Nothing is saved elsewhere, no handler is
entered (R164), and there is no return: only `create` and `load` leave FAULTED (R165). -/
def raiseFaultHalt (s : State) : State := { s with runState := .faulted }

end Sys2Proof.Machine
end

