-- ==== Sys2Proof/Machine/Operands.lean ====
section
/-! DEFINITION. The operand forms (30_encoding.md rule R64): a register, an 8-bit immediate, an absolute byte address, an
absolute branch target and a rotate count. There is one addressing mode, absolute direct (41_data_transfer.md). -/

namespace Sys2Proof.Machine

/-- A source register operand: the register's value before any write of this instruction (R12, R84). -/
def regOperand (s : State) (r : Reg) : Byte := readReg s r

/-- `imm8`, taken as an 8-bit value unchanged, neither extended nor scaled. -/
def immOperand (imm8 : Byte) : Byte := imm8

/-- `addr8`, an absolute byte address, added to no base and not scaled. -/
def absAddr (addr8 : Byte) : Addr := addr8

/-- `target8`, an absolute byte address, not relative to `pc` and not scaled. -/
def branchTarget (target8 : Byte) : Addr := target8

/-- `n` of ROTATE, an unsigned count 0 to 7. -/
def rotateCount (n : Count) : Nat := n.toNat

end Sys2Proof.Machine
end

