-- ==== Sys2Proof/Machine/Flags.lean ====
section
/-! DEFINITION. The machine has no flags, no condition codes and no predicates (10_state.md rule R28), so no flag is computed
anywhere. Its one condition is the comparison BRANCH-IF-EQUAL makes on two registers directly. -/

namespace Sys2Proof.Machine

/-- The condition of BRANCH-IF-EQUAL: `x[r] == x[0]`, 8-bit equality (43_control.md rule R140, 10_state.md rule R23). -/
def equalsRegZero (s : State) (r : Reg) : Bool := regOperand s r == regOperand s 0#4

end Sys2Proof.Machine
end

