-- ==== Sys2Proof/Machine/Alu.lean ====
section
/-! DEFINITION. The ALU and its instructions, execute stage (42_alu.md). Values are 8-bit unsigned, results are truncated to 8
bits, and no flag is written (R120). -/

namespace Sys2Proof.Machine

/-- `trunc_8(zext_9(a) + zext_9(b))` (R121): the carry out of bit 7 is discarded. -/
def add8 (a b : Byte) : Byte := (a.setWidth 9 + b.setWidth 9).setWidth 8

/-- `ror8(v, n)` (R126). The left shift is computed 16 bits wide before the truncation, and a count of 0 is a no-op. -/
def ror8 (v : Byte) (n : Nat) : Byte :=
  if n = 0 then v else ((v.setWidth 16 >>> n) ||| (v.setWidth 16 <<< (8 - n))).setWidth 8

/-- A register-to-register operation: both sources are read, then the destination is written (R84, R120). -/
def aluRRR (f : Byte → Byte → Byte) (d a b : Reg) (s : State) : State :=
  writeReg s d (f (regOperand s a) (regOperand s b))

/-- ADD (R121). -/
def execAdd (d a b : Reg) (s : State) : Result := .next (aluRRR add8 d a b s)

/-- OR (R122): `x[d] <- x[a] | x[b]`. -/
def execOr (d a b : Reg) (s : State) : Result := .next (aluRRR (· ||| ·) d a b s)

/-- AND (R123): `x[d] <- x[a] & x[b]`. -/
def execAnd (d a b : Reg) (s : State) : Result := .next (aluRRR (· &&& ·) d a b s)

/-- XOR (R124): `x[d] <- x[a] ^ x[b]`. -/
def execXor (d a b : Reg) (s : State) : Result := .next (aluRRR (· ^^^ ·) d a b s)

/-- ROTATE (R125): `x[r] <- ror8(x[r], n)`. -/
def execRor (r : Reg) (n : Count) (s : State) : Result :=
  .next (writeReg s r (ror8 (regOperand s r) (rotateCount n)))

end Sys2Proof.Machine
end

