-- ==== Sys2Proof/Machine/Control.lean ====
section
/-! DEFINITION. The control instructions and the undefined opcodes, execute stage (43_control.md). -/

namespace Sys2Proof.Machine

/-- BRANCH-IF-EQUAL (R140): if `x[r] == x[0]` then `pc <- target8`; otherwise `pc` stays where fetch put it. -/
def execBeq (r : Reg) (target8 : Byte) (s : State) : Result :=
  .next (if equalsRegZero s r then setPc s (branchTarget target8) else s)

/-- HALT (R142). -/
def execHalt (s : State) : Result := .next (haltHalted s)

/-- Opcode 0x0 (R143). -/
def execUndef0 (s : State) : Result := .next (raiseFaultHalt s)

/-- Opcode 0x6 (R143). -/
def execUndef6 (s : State) : Result := .next (raiseFaultHalt s)

/-- Opcode 0xD (R143). -/
def execUndefD (s : State) : Result := .next (raiseFaultHalt s)

/-- Opcode 0xE (R143). -/
def execUndefE (s : State) : Result := .next (raiseFaultHalt s)

/-- Opcode 0xF (R143). -/
def execUndefF (s : State) : Result := .next (raiseFaultHalt s)

end Sys2Proof.Machine
end

