-- ==== Sys2Proof/Machine/DataTransfer.lean ====
section
/-! DEFINITION. The data transfer instructions, execute stage (41_data_transfer.md). -/

namespace Sys2Proof.Machine

/-- LOAD-FROM-MEMORY (R100): `x[d] <- MemRead(addr8, 1)`. -/
def execLoad (d : Reg) (addr8 : Byte) (s : State) : Result :=
  .next (writeReg s d (memRead s (absAddr addr8)))

/-- SET-IMMEDIATE (R101): `x[d] <- imm8`. -/
def execSet (d : Reg) (imm8 : Byte) (s : State) : Result :=
  .next (writeReg s d (immOperand imm8))

/-- STORE-TO-MEMORY (R102): `MemWrite(addr8, 1, x[s])`. -/
def execStore (src : Reg) (addr8 : Byte) (s : State) : Result :=
  .next (memWrite s (absAddr addr8) (regOperand s src))

/-- MOVE (R103): `x[d] <- x[s]`. -/
def execMove (d src : Reg) (s : State) : Result :=
  .next (writeReg s d (regOperand s src))

end Sys2Proof.Machine
end

