-- ==== Sys2Proof/Machine/Dispatch.lean ====
section
/-! DEFINITION. The execute stage: exactly one opcode's effect (40_fetch_decode_step.md rules R82 and R83). -/

namespace Sys2Proof.Machine

/-- One arm per row of the opcode map (R66). The state is the one fetch left (R12). -/
def exec (i : Instr) (s : State) : Host.Outcome State Fault Refusal :=
  match i with
  | .undef0 => Sys2Proof.Machine.execUndef0 s
  | .load d addr8 => Sys2Proof.Machine.execLoad d addr8 s
  | .set d imm8 => Sys2Proof.Machine.execSet d imm8 s
  | .store src addr8 => Sys2Proof.Machine.execStore src addr8 s
  | .move d src => Sys2Proof.Machine.execMove d src s
  | .add d a b => Sys2Proof.Machine.execAdd d a b s
  | .undef6 => Sys2Proof.Machine.execUndef6 s
  | .or d a b => Sys2Proof.Machine.execOr d a b s
  | .and d a b => Sys2Proof.Machine.execAnd d a b s
  | .xor d a b => Sys2Proof.Machine.execXor d a b s
  | .ror r n => Sys2Proof.Machine.execRor r n s
  | .beq r target8 => Sys2Proof.Machine.execBeq r target8 s
  | .halt => Sys2Proof.Machine.execHalt s
  | .undefD => Sys2Proof.Machine.execUndefD s
  | .undefE => Sys2Proof.Machine.execUndefE s
  | .undefF => Sys2Proof.Machine.execUndefF s

end Sys2Proof.Machine
end

