-- ==== Sys2Proof/Machine/Step.lean ====
section
/-! DEFINITION. One step: fetch, decode and execute, in that order and never overlapped (40_fetch_decode_step.md rules R80 to
R89), and the placing of one word where the next step fetches. -/

namespace Sys2Proof.Machine

/-- `step()` of R80. A machine that is HALTED or FAULTED is refused before any fetch (R87). -/
def step (s : State) : Host.Outcome State Fault Refusal :=
  match s.runState with
  | .running => exec (decode (fetch s).ir) (fetch s)
  | .halted | .faulted => .refused .stepRefused

/-- The machine with one instruction word put where `step` fetches next, RUNNING so that the next step fetches at all (log
entry 5). Bits of `w` from `nbits` up are 0. -/
def State.withFetchWord (s : State) (nbits w : Nat) : State :=
  setRunning (placeWord s s.pc (BitVec.ofNat Config.instrWidth (w % 2 ^ nbits)))

end Sys2Proof.Machine
end

