-- ==== Sys2Proof/Machine/Assembler.lean ====
section
/-! DEFINITION. The spec's assembler and disassembler (30_encoding.md rules R69 to R71): the word of a source line, the source
line of a word, and the text of a line. They have no effect on the machine (92_eei_decisions.md D8). -/

namespace Sys2Proof

/-- Four hexadecimal digits as a number, the first the most significant. -/
def nibbles (a b c d : Nat) : Nat := ((a * 16 + b) * 16 + c) * 16 + d

/-- The encoding column of R69 and the equations of R71, as a number. A byte operand fills the two low digits. -/
def AsmLine.code : AsmLine → Nat
  | .load rd addr8 => nibbles 0x1 rd 0 0 + addr8
  | .set rd imm8 => nibbles 0x2 rd 0 0 + imm8
  | .store rs addr8 => nibbles 0x3 rs 0 0 + addr8
  | .move rd rs => nibbles 0x4 0 rs rd
  | .add rd ra rb => nibbles 0x5 rd ra rb
  | .or rd ra rb => nibbles 0x7 rd ra rb
  | .and rd ra rb => nibbles 0x8 rd ra rb
  | .xor rd ra rb => nibbles 0x9 rd ra rb
  | .ror r n => nibbles 0xA r n 0
  | .beq r target8 => nibbles 0xB r 0 0 + target8
  | .halt => 0xC000
  | .word w => w
  | .jmp target8 => nibbles 0xB 0 0 0 + target8
  | .nop => 0x4000
  | .clr rd => nibbles 0x2 rd 0 0

/-- The word of a source line, or none where an operand is out of range (DESIGN CHOICE, log entry 12). -/
def assemble (line : AsmLine) : Option Word :=
  if line.wellFormed then some (BitVec.ofNat Config.instrWidth line.code) else none

/-- The source line of a word: its instruction, whatever its ignored bits hold (R70). An undefined opcode has no syntax of its
own and is written `.word` (R69, R143). DESIGN CHOICE (log entry 12): a core instruction's own syntax, never a
pseudo-instruction's. -/
def disassemble (w : Word) : AsmLine :=
  match decode w with
  | .load d addr8 => .load d.toNat addr8.toNat
  | .set d imm8 => .set d.toNat imm8.toNat
  | .store s addr8 => .store s.toNat addr8.toNat
  | .move d s => .move d.toNat s.toNat
  | .add d a b => .add d.toNat a.toNat b.toNat
  | .or d a b => .or d.toNat a.toNat b.toNat
  | .and d a b => .and d.toNat a.toNat b.toNat
  | .xor d a b => .xor d.toNat a.toNat b.toNat
  | .ror r n => .ror r.toNat n.toNat
  | .beq r target8 => .beq r.toNat target8.toNat
  | .halt => .halt
  | .undef0 => .word w.toNat
  | .undef6 => .word w.toNat
  | .undefD => .word w.toNat
  | .undefE => .word w.toNat
  | .undefF => .word w.toNat

/-- One digit, decimal or hexadecimal. -/
def digitChar (n : Nat) : Char := ("0123456789ABCDEF".toList)[n]?.getD '?'

/-- The decimal digits of a number below `10 ^ fuel`, no leading zero. -/
def decDigits : Nat → Nat → List Char
  | 0, _ => []
  | fuel + 1, n => (if n < 10 then [] else decDigits fuel (n / 10)) ++ [digitChar (n % 10)]

/-- The last `width` hexadecimal digits of a number, leading zeros written. -/
def hexDigits : Nat → Nat → List Char
  | 0, _ => []
  | width + 1, n => hexDigits width (n / 16) ++ [digitChar (n % 16)]

/-- The two ways R69 writes a number. -/
inductive NumberStyle where
  | hexadecimal
  | decimal
  deriving DecidableEq, Repr

/-- A number as text, hexadecimal `0x..` or decimal (R69). DESIGN CHOICE (log entry 12): in hexadecimal `width` digits, upper
case, leading zeros written; in decimal no leading zero. -/
def numberText (style : NumberStyle) (width n : Nat) : List Char :=
  match style with
  | .hexadecimal => ['0', 'x'] ++ hexDigits width n
  | .decimal => decDigits 5 n

/-- A register as text, `r0` to `r15` (R69). -/
def regText (n : Nat) : List Char := 'r' :: decDigits 2 n

/-- Operands separated by a comma and a space (R69). -/
def operandsText : List (List Char) → List Char
  | [] => []
  | [a] => a
  | a :: rest => a ++ [',', ' '] ++ operandsText rest

/-- A memory operand, in square brackets (R69). -/
def bracketText (t : List Char) : List Char := ['['] ++ t ++ [']']

/-- A source line as text (the syntax column of R69, and R71). DESIGN CHOICE (log entry 12): one style for all the numbers of a
line; in hexadecimal a byte has two digits, the rotate count of ROR one (`ROR r1, 0x3`), and the word of `.word` four. A line
with an operand out of range, which is no legal line, may lack its high digits. -/
def AsmLine.text (style : NumberStyle) (line : AsmLine) : List Char :=
  let byte := numberText style 2
  match line with
  | .load rd addr8 => "LOAD ".toList ++ operandsText [regText rd, bracketText (byte addr8)]
  | .set rd imm8 => "SET ".toList ++ operandsText [regText rd, byte imm8]
  | .store rs addr8 => "STORE ".toList ++ operandsText [regText rs, bracketText (byte addr8)]
  | .move rd rs => "MOVE ".toList ++ operandsText [regText rd, regText rs]
  | .add rd ra rb => "ADD ".toList ++ operandsText [regText rd, regText ra, regText rb]
  | .or rd ra rb => "OR ".toList ++ operandsText [regText rd, regText ra, regText rb]
  | .and rd ra rb => "AND ".toList ++ operandsText [regText rd, regText ra, regText rb]
  | .xor rd ra rb => "XOR ".toList ++ operandsText [regText rd, regText ra, regText rb]
  | .ror r n => "ROR ".toList ++ operandsText [regText r, numberText style 1 n]
  | .beq r target8 => "BEQ ".toList ++ operandsText [regText r, byte target8]
  | .halt => "HALT".toList
  | .word w => ".word ".toList ++ numberText style 4 w
  | .jmp target8 => "JMP ".toList ++ byte target8
  | .nop => "NOP".toList
  | .clr rd => "CLR ".toList ++ regText rd

end Sys2Proof
end

