-- ==== Sys2Proof/Machine/Interface.lean ====
section
/-! DEFINITION. The core's external operations as atomic transactions (00_scope.md rules R4 and R7): create, load, step,
snapshot and status, each with the result the host sees. -/

namespace Sys2Proof.Machine

/-- What `load` answers (70_reset_and_hazards.md rule R181). -/
inductive LoadResult where
  | accepted
  | rejected
  deriving DecidableEq, Repr

/-- What `step` answers (R80): `Continue` or `Halt`, or `Refused` when R87 applies. -/
inductive StepResult where
  | continues
  | halt
  | refused
  deriving DecidableEq, Repr

/-- What `snapshot` returns (10_state.md rule R31): registers 0 to 15 and memory 0 to 255, in index order. It has no
run_state. -/
structure Snapshot where
  pc : Addr
  ir : Word
  registers : Vector Byte 16
  memory : Vector Byte 256
  deriving DecidableEq, Repr

/-- `create()` (R180). -/
def create : State := State.reset

/-- The state an accepted load leaves (R182): `pc`, `ir` and memory cleared, the words written from address 0, RUNNING. The
registers are not touched (90_conflicts.md C3, log entry 6). -/
def loadedState (s : State) (words : List Word) : State :=
  placeWords (setRunning { s with pc := BitVec.ofNat Config.addrWidth Config.programBase, ir := 0#16, mem := [] })
    (BitVec.ofNat Config.addrWidth Config.programBase) words

/-- `load(machine, program)` (R181 to R183): accepted in every run state when the program fits, else rejected with no
change. -/
def load (s : State) (words : List Word) : State × LoadResult :=
  if programFits words then (loadedState s words, .accepted) else (s, .rejected)

/-- `step(machine)` as the host calls it (R80, R87): the state after it and its result. A step that leaves RUNNING is
`Continue`, one that leaves HALTED or FAULTED is `Halt` (R30), and a refused step changes nothing. -/
def stepTransaction (s : State) : State × StepResult :=
  match step s with
  | .next t => (t, if t.runState = .running then .continues else .halt)
  | .fault f => nomatch f
  | .refused _ => (s, .refused)

/-- `snapshot(machine)` (R31). -/
def snapshot (s : State) : Snapshot where
  pc := s.pc
  ir := s.ir
  registers := s.x
  memory := Vector.ofFn (fun a : Fin 256 => memRead s (BitVec.ofFin a))

/-- `status(machine)` (R31). -/
def status (s : State) : RunState := s.runState

/-- The state after `n` step transactions. -/
def runSteps : Nat → State → State
  | 0, s => s
  | n + 1, s => runSteps n (stepTransaction s).1

end Sys2Proof.Machine
end

