-- ==== Sys2Proof/Safety.lean ====
section
/-! DEFINITION. The terms that claims about the machine use: what each instruction reads and writes, what is kept, the
invariants, and how a run ends. -/

namespace Sys2Proof

/-! ## What each instruction reads and writes (10_state.md rule R24, 20_memory.md rule R41) -/

/-- The general register an instruction writes, from the table of R24. -/
def Instr.regWritten : Instr → Option Reg
  | .load d _ => some d
  | .set d _ => some d
  | .move d _ => some d
  | .add d _ _ => some d
  | .or d _ _ => some d
  | .and d _ _ => some d
  | .xor d _ _ => some d
  | .ror r _ => some r
  | .store _ _ => none
  | .beq _ _ => none
  | .halt => none
  | .undef0 => none
  | .undef6 => none
  | .undefD => none
  | .undefE => none
  | .undefF => none

/-- The general registers an instruction reads, from the table of R24. -/
def Instr.regsRead : Instr → List Reg
  | .store s _ => [s]
  | .move _ s => [s]
  | .add _ a b => [a, b]
  | .or _ a b => [a, b]
  | .and _ a b => [a, b]
  | .xor _ a b => [a, b]
  | .ror r _ => [r]
  | .beq r _ => [r, 0#4]
  | .load _ _ => []
  | .set _ _ => []
  | .halt => []
  | .undef0 => []
  | .undef6 => []
  | .undefD => []
  | .undefE => []
  | .undefF => []

/-- The byte an instruction's execute stage reads: LOAD alone reads one (R41). -/
def Instr.memLoaded : Instr → Option Addr
  | .load _ addr8 => some (Machine.absAddr addr8)
  | .set _ _ => none
  | .store _ _ => none
  | .move _ _ => none
  | .add _ _ _ => none
  | .or _ _ _ => none
  | .and _ _ _ => none
  | .xor _ _ _ => none
  | .ror _ _ => none
  | .beq _ _ => none
  | .halt => none
  | .undef0 => none
  | .undef6 => none
  | .undefD => none
  | .undefE => none
  | .undefF => none

/-- The byte an instruction stores to, at the address its meaning uses: STORE alone stores (R41, R102). -/
def Instr.memStored : Instr → Option Addr
  | .store _ addr8 => some (Machine.absAddr addr8)
  | .load _ _ => none
  | .set _ _ => none
  | .move _ _ => none
  | .add _ _ _ => none
  | .or _ _ _ => none
  | .and _ _ _ => none
  | .xor _ _ _ => none
  | .ror _ _ => none
  | .beq _ _ => none
  | .halt => none
  | .undef0 => none
  | .undef6 => none
  | .undefD => none
  | .undefE => none
  | .undefF => none

/-- The run state an instruction leaves when it starts from RUNNING (R29, R85). -/
def Instr.runStateAfter : Instr → Machine.RunState
  | .halt => .halted
  | .undef0 => .faulted
  | .undef6 => .faulted
  | .undefD => .faulted
  | .undefE => .faulted
  | .undefF => .faulted
  | .load _ _ => .running
  | .set _ _ => .running
  | .store _ _ => .running
  | .move _ _ => .running
  | .add _ _ _ => .running
  | .or _ _ _ => .running
  | .and _ _ _ => .running
  | .xor _ _ _ => .running
  | .ror _ _ => .running
  | .beq _ _ => .running

/-- One of the five undefined opcode values (R67). -/
def isUndefinedOpcode (op : BitVec 4) : Prop := op = 0x0#4 ∨ op = 0x6#4 ∨ op = 0xD#4 ∨ op = 0xE#4 ∨ op = 0xF#4

namespace Machine

/-! ## What is kept -/

/-- Every register but the named ones reads as before. -/
def RegsKept (s t : State) (written : List Reg) : Prop := ∀ r, r ∉ written → readReg t r = readReg s r

/-- Every byte of memory but the named ones reads as before. -/
def MemKept (s t : State) (stored : List Addr) : Prop := ∀ a, a ∉ stored → memRead t a = memRead s a

/-- Nothing but register `d` may have changed: no other register, no byte of memory, no `pc`, `ir` or `run_state`. -/
def OnlyRegWritten (s t : State) (d : Reg) : Prop :=
  RegsKept s t [d] ∧ MemKept s t [] ∧ t.pc = s.pc ∧ t.ir = s.ir ∧ t.runState = s.runState

/-- Nothing but the byte at `a` may have changed. -/
def OnlyByteStored (s t : State) (a : Addr) : Prop :=
  RegsKept s t [] ∧ MemKept s t [a] ∧ t.pc = s.pc ∧ t.ir = s.ir ∧ t.runState = s.runState

/-- Nothing but `pc` may have changed. -/
def OnlyPcWritten (s t : State) : Prop :=
  RegsKept s t [] ∧ MemKept s t [] ∧ t.ir = s.ir ∧ t.runState = s.runState

/-- Nothing but `run_state` may have changed. -/
def OnlyRunStateWritten (s t : State) : Prop :=
  RegsKept s t [] ∧ MemKept s t [] ∧ t.pc = s.pc ∧ t.ir = s.ir

/-! ## Invariants -/

/-- In a stopped machine `ir` is the word that stopped it, HALT's opcode for HALTED and an undefined one for FAULTED (R27,
R29), and that word still stands in memory at `pc - 2` (R161). -/
def StopWordAgrees (s : State) : Prop :=
  match s.runState with
  | .running => True
  | .halted => opcode s.ir = 0xC#4 ∧ wordAt s (s.pc - 2#8) = s.ir
  | .faulted => isUndefinedOpcode (opcode s.ir) ∧ wordAt s (s.pc - 2#8) = s.ir

/-- The machine's invariant: memory is in its canonical form, and a stopped machine's `ir` and `pc` record what stopped it. -/
structure StateInv (s : State) : Prop where
  memWf : s.mem.wf = true
  stopWord : StopWordAgrees s

/-! ## How a run ends -/

/-- A clean end: the machine executed HALT (92_eei_decisions.md D13). -/
def EndsCleanly (s : State) : Prop := s.runState = .halted

/-- A fault outcome: the machine decoded an undefined opcode (D13). -/
def EndsInFault (s : State) : Prop := s.runState = .faulted

/-- A safe run: within `n` steps the machine executes HALT. It never ends in a fault-halt, which is terminal. -/
def HaltsCleanlyWithin (n : Nat) (s : State) : Prop := ∃ k, k ≤ n ∧ EndsCleanly (runSteps k s)

/-- `n` steps, each answering a next state and none executing a BRANCH-IF-EQUAL, from one state to another. -/
inductive StraightRun : Nat → State → State → Prop
  | refl (s : State) : StraightRun 0 s s
  | step {n : Nat} {s t u : State} : step s = .next t →
      (∀ r target8, decode (wordAt s s.pc) ≠ .beq r target8) → StraightRun n t u → StraightRun (n + 1) s u

end Machine

end Sys2Proof
end

