-- ==== Sys2Proof/Certificates/Slice0/Obligations.lean ====
section
/-! DEFINITION. The statements for the provers, from the numbered rules of spec/. Where a statement rests on a decision the
spec marks as its own (D<n> of 92_eei_decisions.md) or on the model's choice (a log entry), its docstring says so. -/

open Sys2Proof Sys2Proof.Machine

/-! ## Encoding -/

/-- The five field primitives are the named bits of the word and the byte (R61), as numbers. -/
def Obligations.FieldPrimitivesAreTheNamedBits : Prop :=
  (∀ w : Word, (highByte w).toNat = w.toNat / 256 ∧ (lowByte w).toNat = w.toNat % 256 ∧
    (lowNibble (highByte w)).toNat = w.toNat / 256 % 16 ∧ (highNibble (lowByte w)).toNat = w.toNat / 16 % 16 ∧
    (lowNibble (lowByte w)).toNat = w.toNat % 16) ∧
  ∀ y : Byte, (lowNibble y).toNat = y.toNat % 16 ∧ (highNibble y).toNat = y.toNat / 16

/-- Decode is total and unambiguous: every word belongs to exactly one row of the opcode table, the row of the instruction it
decodes to, and every register it names is one of the sixteen (R62, R68). -/
def Obligations.EveryWordDecodesToItsOneTableRow : Prop :=
  ∀ w : Word,
    (opcodeTable.filter (fun row => row.matches w)).map OpcodeRow.mnemonic = [(decode w).mnemonic] ∧
    (decode w).opcode.toNat = w.toNat / 4096 ∧
    ∀ r ∈ (decode w).regsRead ++ (decode w).regWritten.toList, r.toNat < Config.numRegs

/-- The operands of the decoded instruction are the fields its format draws, as numbers: format RM, MV, RRR and ROT. -/
def Obligations.DecodedOperandsAreTheFieldsOfTheFormat : Prop :=
  ∀ w : Word, match decode w with
    | .load d addr8 => w.toNat / 4096 = 0x1 ∧ d.toNat = w.toNat / 256 % 16 ∧ addr8.toNat = w.toNat % 256
    | .set d imm8 => w.toNat / 4096 = 0x2 ∧ d.toNat = w.toNat / 256 % 16 ∧ imm8.toNat = w.toNat % 256
    | .store s addr8 => w.toNat / 4096 = 0x3 ∧ s.toNat = w.toNat / 256 % 16 ∧ addr8.toNat = w.toNat % 256
    | .move d s => w.toNat / 4096 = 0x4 ∧ s.toNat = w.toNat / 16 % 16 ∧ d.toNat = w.toNat % 16
    | .add d a b => w.toNat / 4096 = 0x5 ∧ d.toNat = w.toNat / 256 % 16 ∧ a.toNat = w.toNat / 16 % 16 ∧
        b.toNat = w.toNat % 16
    | .or d a b => w.toNat / 4096 = 0x7 ∧ d.toNat = w.toNat / 256 % 16 ∧ a.toNat = w.toNat / 16 % 16 ∧
        b.toNat = w.toNat % 16
    | .and d a b => w.toNat / 4096 = 0x8 ∧ d.toNat = w.toNat / 256 % 16 ∧ a.toNat = w.toNat / 16 % 16 ∧
        b.toNat = w.toNat % 16
    | .xor d a b => w.toNat / 4096 = 0x9 ∧ d.toNat = w.toNat / 256 % 16 ∧ a.toNat = w.toNat / 16 % 16 ∧
        b.toNat = w.toNat % 16
    | .ror r n => w.toNat / 4096 = 0xA ∧ r.toNat = w.toNat / 256 % 16 ∧ n.toNat = w.toNat / 16 % 8
    | .beq r target8 => w.toNat / 4096 = 0xB ∧ r.toNat = w.toNat / 256 % 16 ∧ target8.toNat = w.toNat % 256
    | .halt => w.toNat / 4096 = 0xC
    | .undef0 => w.toNat / 4096 = 0x0
    | .undef6 => w.toNat / 4096 = 0x6
    | .undefD => w.toNat / 4096 = 0xD
    | .undefE => w.toNat / 4096 = 0xE
    | .undefF => w.toNat / 4096 = 0xF

/-- Decode and encode agree, on words and on the bytes memory holds. -/
def Obligations.DecodeOfEncodeIsTheInstruction : Prop :=
  ∀ i : Instr, decode (encode i) = i ∧
    ∀ rest : List Byte, decodeBytes (encodeBytes i ++ rest) = .ok (i, rest)

/-- Encoding a decoded word gives the word with its ignored bits 0 and every other bit kept. Which bits are ignored is the
spec's decision D6. -/
def Obligations.EncodeOfDecodeZeroesTheIgnoredBits : Prop :=
  ∀ w : Word, encode (decode w) = w &&& ~~~(decode w).ignoredMask

/-- Two words decode alike exactly when they differ in nothing but the bits their format ignores (the spec's decision D6). -/
def Obligations.WordsDecodeAlikeExactlyWhenOnlyIgnoredBitsDiffer : Prop :=
  ∀ w v : Word, decode w = decode v ↔ w ||| (decode w).ignoredMask = v ||| (decode w).ignoredMask

/-- Words written out from the encoding column of the opcode table, one of every format, decode to what they stand for. The
ROR word has bits 7 and 3:0 set and the HALT word bits 11:0: that decode ignores them is the spec's decision D6 (R65, log
entry 7). -/
def Obligations.WordsWrittenFromTheEncodingsDecode : Prop :=
  decode 0b0001001001000000#16 = .load 2#4 0x40#8 ∧
  decode 0b0100000000010011#16 = .move 3#4 1#4 ∧
  decode 0b0101001100010010#16 = .add 3#4 1#4 2#4 ∧
  decode 0b1010000110111111#16 = .ror 1#4 3#3 ∧
  decode 0b1011010101000000#16 = .beq 5#4 0x40#8 ∧
  decode 0b1100111111111111#16 = .halt ∧
  decode 0b0110000100100011#16 = .undef6

/-- The assembler's word of a line decodes to the line's instruction, with ignored bits 0; the disassembler prints one line
for all words of an instruction; `.word` gives the word itself; the pseudo-instructions are their core instructions; a line
out of range has no word (the model's choice, log entry 12). The syntax is the spec's decision D8, the ignored bits are
D6. -/
def Obligations.AssemblerAndDisassemblerAgreeWithDecode : Prop :=
  (∀ w : Word, ¬ isUndefinedOpcode (opcode w) → assemble (disassemble w) = some (encode (decode w))) ∧
  (∀ w : Word, isUndefinedOpcode (opcode w) → assemble (disassemble w) = some w) ∧
  (∀ w : Word, assemble (.word w.toNat) = some w) ∧
  (∀ w v : Word, ¬ isUndefinedOpcode (opcode w) → decode w = decode v → disassemble w = disassemble v) ∧
  (∀ t : Byte, assemble (.jmp t.toNat) = some (encode (.beq 0#4 t))) ∧
  assemble .nop = some (encode (.move 0#4 0#4)) ∧
  (∀ d : Reg, assemble (.clr d.toNat) = some (encode (.set d 0#8))) ∧
  ∀ line : AsmLine, line.wellFormed = false → assemble line = none

/-! ## The step -/

/-- When the bytes at `pc` and `(pc + 1) mod 256` decode to an instruction, a step of a running machine is that instruction's
meaning on the state fetch leaves: `ir` the word, first byte high, and `pc` advanced by 2. At `pc` = 255 the second byte is
`mem[0]`, the spec's decision D1. -/
def Obligations.StepRunsTheInstructionAtPc : Prop :=
  ∀ (s : State) (i : Instr) (hi lo : Byte), s.runState = .running →
    memRead s s.pc = hi → memRead s (s.pc + 1#8) = lo → decodeBytes [hi, lo] = .ok (i, []) →
    step s = exec i { s with ir := BitVec.ofNat 16 (hi.toNat * 256 + lo.toNat), pc := s.pc + 2#8 }

/-- Fetch reads `mem[pc]` and `mem[(pc + 1) mod 256]`, writes `ir` and `pc` and nothing else. At `pc` = 255 the second byte is
`mem[0]` and `pc` becomes 1 (the spec's decision D1); the address may be odd (D14). -/
def Obligations.FetchWritesOnlyIrAndPc : Prop :=
  ∀ s : State,
    (fetch s).ir.toNat = (memRead s s.pc).toNat * 256 +
      (memRead s (BitVec.ofNat 8 ((s.pc.toNat + 1) % 256))).toNat ∧
    (fetch s).pc.toNat = (s.pc.toNat + 2) % 256 ∧
    (s.pc = 255#8 → (fetch s).ir.toNat % 256 = (memRead s 0#8).toNat ∧ (fetch s).pc = 1#8) ∧
    RegsKept s (fetch s) [] ∧ MemKept s (fetch s) [] ∧ (fetch s).runState = s.runState

/-- Words are big-endian in memory, for fetch and for program load alike (R43). At `pc` = 255 the byte after is the subject of
`FetchWritesOnlyIrAndPc`. -/
def Obligations.WordsAreBigEndianInFetchAndLoad : Prop :=
  (∀ s : State, s.pc ≠ 255#8 →
    (highByte (fetch s).ir) = memRead s s.pc ∧ (lowByte (fetch s).ir) = memRead s (BitVec.ofNat 8 (s.pc.toNat + 1))) ∧
  ∀ (s : State) (words : List Word) (k : Nat) (w : Word), words.length ≤ 128 → words[k]? = some w →
    memRead (load s words).1 (BitVec.ofNat 8 (2 * k)) = highByte w ∧
    memRead (load s words).1 (BitVec.ofNat 8 (2 * k + 1)) = lowByte w

/-- A step completes exactly when the machine is RUNNING; a HALTED or FAULTED machine is refused with no change (the refusal's
form is the spec's decision D3). -/
def Obligations.StepCompletesExactlyWhenRunning : Prop :=
  ∀ s : State,
    (s.runState = .running → ∃ t, step s = .next t ∧ (stepTransaction s).1 = t ∧ (stepTransaction s).2 ≠ .refused) ∧
    (s.runState ≠ .running → step s = .refused .stepRefused ∧ stepTransaction s = (s, .refused))

/-- The step result depends only on the opcode of the fetched word (R85). -/
def Obligations.StepResultDependsOnlyOnTheOpcode : Prop :=
  ∀ s : State, s.runState = .running →
    ((opcode (fetch s).ir).toNat ∈ [0x1, 0x2, 0x3, 0x4, 0x5, 0x7, 0x8, 0x9, 0xA, 0xB] →
      (stepTransaction s).2 = .continues) ∧
    ((opcode (fetch s).ir).toNat ∈ [0xC, 0x0, 0x6, 0xD, 0xE, 0xF] → (stepTransaction s).2 = .halt)

/-- A step writes `ir` and `pc`, the one register and the one byte of memory its instruction's row names, and `run_state` only
when it halts: everything else is as before. The spec derives this rule. -/
def Obligations.StepWritesOnlyWhatItsInstructionNames : Prop :=
  ∀ s t : State, step s = .next t →
    RegsKept s t (decode (fetch s).ir).regWritten.toList ∧
    MemKept s t (decode (fetch s).ir).memStored.toList ∧
    t.ir = (fetch s).ir ∧
    (t.runState ≠ s.runState → (decode (fetch s).ir).opcode.toNat ∈ [0xC, 0x0, 0x6, 0xD, 0xE, 0xF])

/-- `pc` holds the address of the next word between steps, that address + 2 during execute, and is changed by fetch and by a
taken branch alone; create and load set it to 0 (R25). The word fetched at 255 is the spec's decision D1. -/
def Obligations.PcChangesOnlyByFetchAndTakenBranch : Prop :=
  (∀ s : State, (fetch s).ir = wordAt s s.pc ∧ (fetch s).pc.toNat = (s.pc.toNat + 2) % 256) ∧
  (∀ s t : State, step s = .next t →
    match decode (fetch s).ir with
    | .beq r target8 => t.pc = if readReg s r = readReg s 0#4 then target8 else (fetch s).pc
    | _ => t.pc = (fetch s).pc) ∧
  (∀ s : State, s.runState ≠ .running → (stepTransaction s).1.pc = s.pc) ∧
  create.pc = 0#8 ∧
  ∀ (s : State) (words : List Word), (load s words).1.pc = if words.length ≤ 128 then 0#8 else s.pc

/-- `ir` holds the word of the latest fetch, create and load set it to 0, a stopped machine keeps it, the host reads it through
the snapshot, and nothing but the decode of the same step reads it (R27). The word fetched at 255 is the spec's decision
D1. -/
def Obligations.IrHoldsTheFetchedWordAndOnlyDecodeReadsIt : Prop :=
  (∀ s t : State, step s = .next t → t.ir = wordAt s s.pc) ∧
  (∀ s : State, s.runState ≠ .running → (stepTransaction s).1.ir = s.ir) ∧
  create.ir = 0#16 ∧
  (∀ (s : State) (words : List Word), words.length ≤ 128 → (load s words).1.ir = 0#16) ∧
  (∀ s : State, (snapshot s).ir = s.ir) ∧
  (∀ (s : State) (w : Word), s.runState = .running → step { s with ir := w } = step s) ∧
  ∀ (i : Instr) (s t : State) (w : Word), exec i s = .next t → exec i { s with ir := w } = .next { t with ir := w }

/-- HALT alone leaves HALTED, an undefined opcode alone leaves FAULTED, every other step stays RUNNING, an accepted load sets
RUNNING, and a rejected load or a refused step changes nothing. The register itself is the spec's decision D2, the value
after load D4. -/
def Obligations.RunStateIsWrittenByHaltFaultHaltAndLoadAlone : Prop :=
  (∀ s t : State, step s = .next t →
    (t.runState = .halted ↔ opcode (fetch s).ir = 0xC#4) ∧
    (t.runState = .faulted ↔ isUndefinedOpcode (opcode (fetch s).ir))) ∧
  (∀ s : State, s.runState ≠ .running → (stepTransaction s).1.runState = s.runState) ∧
  create.runState = .running ∧
  ∀ (s : State) (words : List Word),
    (load s words).1.runState = if words.length ≤ 128 then .running else s.runState

/-- What an instruction writes depends on nothing but `pc`, `run_state`, the registers its row of the register table reads and
the byte of memory it loads: two states alike in those get the same `pc`, `run_state`, destination register and stored byte.
The spec derives the table. -/
def Obligations.EffectDependsOnlyOnWhatTheInstructionReads : Prop :=
  ∀ (i : Instr) (s s' : State), s.pc = s'.pc → s.runState = s'.runState →
    (∀ r ∈ i.regsRead, readReg s r = readReg s' r) → (∀ a ∈ i.memLoaded.toList, memRead s a = memRead s' a) →
    ∃ t t', exec i s = .next t ∧ exec i s' = .next t' ∧ t.pc = t'.pc ∧ t.runState = t'.runState ∧
      (∀ r ∈ i.regWritten.toList, readReg t r = readReg t' r) ∧
      ∀ a ∈ i.memStored.toList, memRead t a = memRead t' a

/-! ## Data transfer -/

/-- LOAD-FROM-MEMORY (R100): the word decodes, the byte at the absolute address goes to `x[d]`, nothing else changes, and a
load from a word's first byte returns its bits 15:8. -/
def Obligations.LoadCopiesTheAddressedByteToItsRegister : Prop :=
  ∀ (d : Reg) (addr8 : Byte), decode (0x1#4 ++ d ++ addr8) = .load d addr8 ∧
    ∀ s : State, memRead s addr8 = highByte (wordAt s addr8) ∧
      ∃ t, exec (.load d addr8) s = .next t ∧ readReg t d = memRead s (absAddr addr8) ∧ absAddr addr8 = addr8 ∧
        OnlyRegWritten s t d

/-- SET-IMMEDIATE (R101): the byte of the word goes to `x[d]` unchanged, for every register and every value, and nothing else
changes. -/
def Obligations.SetWritesTheImmediateUnchanged : Prop :=
  ∀ (d : Reg) (imm8 : Byte), decode (0x2#4 ++ d ++ imm8) = .set d imm8 ∧
    ∀ s : State, ∃ t, exec (.set d imm8) s = .next t ∧ readReg t d = imm8 ∧ OnlyRegWritten s t d

/-- STORE-TO-MEMORY (R102): `x[s]` goes to the byte at the absolute address and nothing else changes; the current word stays in
`ir`; a later fetch of that address sees the new byte (across the top of memory by the spec's decision D1); and no other
instruction changes memory. -/
def Obligations.StoreWritesTheAddressedByteOnly : Prop :=
  (∀ (src : Reg) (addr8 : Byte), decode (0x3#4 ++ src ++ addr8) = .store src addr8 ∧
    ∀ s : State, ∃ t, exec (.store src addr8) s = .next t ∧
      memRead t (absAddr addr8) = readReg s src ∧ absAddr addr8 = addr8 ∧ OnlyByteStored s t (absAddr addr8) ∧
      highByte (wordAt t addr8) = readReg s src ∧ lowByte (wordAt t (addr8 - 1#8)) = readReg s src) ∧
  ∀ (i : Instr) (s t : State) (a : Addr), exec i s = .next t → memRead t a ≠ memRead s a → ∃ src, i = .store src a

/-- MOVE: `x[s]` goes to `x[d]`, the source in bits 7:4 and the destination in bits 3:0, bits 11:8 ignored (the spec's decision
D6); nothing else changes, and `x[s]` keeps its value. -/
def Obligations.MoveCopiesTheSourceRegister : Prop :=
  ∀ (g s d : Reg), decode (0x4#4 ++ g ++ s ++ d) = .move d s ∧
    ∀ st : State, ∃ t, exec (.move d s) st = .next t ∧ readReg t d = readReg st s ∧ readReg t s = readReg st s ∧
      OnlyRegWritten st t d

/-- A step that executes STORE is seen by every later fetch of the stored byte, as the first or the second byte of a word, and
does not change the word it executes itself. The spec derives this. -/
def Obligations.StoreIsSeenByTheNextFetch : Prop :=
  ∀ (s t : State) (src : Reg) (a : Addr), decode (fetch s).ir = .store src a → step s = .next t →
    t.ir = wordAt s s.pc ∧
    (t.pc = a → (fetch t).ir = wordOfBytes (readReg s src) (memRead s (a + 1#8))) ∧
    (t.pc + 1#8 = a → (fetch t).ir = wordOfBytes (memRead s t.pc) (readReg s src))

/-! ## ALU -/

/-- ADD (R121): the 8-bit sum of the old source values, carry out of bit 7 discarded, no flag, no fault, nothing else
changes. -/
def Obligations.AddIsTheSumModulo256 : Prop :=
  ∀ (d a b : Reg), decode (0x5#4 ++ d ++ a ++ b) = .add d a b ∧
    ∀ s : State, ∃ t, exec (.add d a b) s = .next t ∧
      readReg t d = ((readReg s a).setWidth 9 + (readReg s b).setWidth 9).setWidth 8 ∧
      (readReg t d).toNat = ((readReg s a).toNat + (readReg s b).toNat) % 256 ∧ OnlyRegWritten s t d

/-- OR, AND and XOR (R122, R123, R124): each bit of the destination is that operation on the same bit of the old source values;
no flag, no fault, nothing else changes. -/
def Obligations.OrAndXorAreBitwise : Prop :=
  (∀ (d a b : Reg), decode (0x7#4 ++ d ++ a ++ b) = .or d a b ∧
    ∀ s : State, ∃ t, exec (.or d a b) s = .next t ∧
      (∀ i, (readReg t d).getLsbD i = ((readReg s a).getLsbD i || (readReg s b).getLsbD i)) ∧ OnlyRegWritten s t d) ∧
  (∀ (d a b : Reg), decode (0x8#4 ++ d ++ a ++ b) = .and d a b ∧
    ∀ s : State, ∃ t, exec (.and d a b) s = .next t ∧
      (∀ i, (readReg t d).getLsbD i = ((readReg s a).getLsbD i && (readReg s b).getLsbD i)) ∧ OnlyRegWritten s t d) ∧
  ∀ (d a b : Reg), decode (0x9#4 ++ d ++ a ++ b) = .xor d a b ∧
    ∀ s : State, ∃ t, exec (.xor d a b) s = .next t ∧
      (∀ i, (readReg t d).getLsbD i = ((readReg s a).getLsbD i ^^ (readReg s b).getLsbD i)) ∧ OnlyRegWritten s t d

/-- ROTATE: bit `i` of the result is bit `(i + n) mod 8` of the old value, for every count 0 to 7, so a count of 0 changes
nothing; a field of 8 to 15 in bits 7:4 rotates by that value mod 8, and bits 3:0 are ignored (the spec's decision D6). Nothing
else changes. The bit form is the spec's derivation from its formula. -/
def Obligations.RotateMovesEveryBitRightAroundTheByte : Prop :=
  (∀ (r : Reg) (field low : BitVec 4), decode (0xA#4 ++ r ++ field ++ low) = .ror r (BitVec.ofNat 3 (field.toNat % 8))) ∧
  ∀ (r : Reg) (n : Count) (s : State), ∃ t, exec (.ror r n) s = .next t ∧
    (∀ i, i < 8 → (readReg t r).getLsbD i = (readReg s r).getLsbD ((i + n.toNat) % 8)) ∧
    (n = 0#3 → readReg t r = readReg s r) ∧ OnlyRegWritten s t r

/-- ADD is right in the signed reading too, and subtraction is the idiom `a + (b ^ 0xFF) + 1`. The spec derives this. -/
def Obligations.AddAgreesInBothReadingsAndGivesSubtraction : Prop :=
  (∀ (d a b : Reg) (s : State), ∃ t, exec (.add d a b) s = .next t ∧
    (readReg t d).toInt = Int.bmod ((readReg s a).toInt + (readReg s b).toInt) 256) ∧
  ∀ a b : Byte, (add8 (add8 a (b ^^^ 0xFF#8)) 1#8).toInt = Int.bmod (a.toInt - b.toInt) 256

/-! ## Control -/

/-- BRANCH-IF-EQUAL (R140): for every register, `x[0]` included, and every target, odd or even, `pc` becomes the absolute target
when `x[r] = x[0]` and stays past the instruction otherwise; no register and no byte of memory changes; the step continues
either way. The next fetch reads at the target, odd or even, and at 255 takes its second byte from `mem[0]` (there the rule
rests on the spec's decisions D14 and D1); a taken branch to its own address loops for ever. -/
def Obligations.BranchGoesToTheTargetExactlyWhenEqual : Prop :=
  (∀ (r : Reg) (target8 : Byte), decode (0xB#4 ++ r ++ target8) = .beq r target8 ∧
    ∀ s : State, ∃ t, exec (.beq r target8) s = .next t ∧
      (readReg s r = readReg s 0#4 → t.pc = target8) ∧ (readReg s r ≠ readReg s 0#4 → t.pc = s.pc) ∧
      OnlyPcWritten s t) ∧
  ∀ (s : State) (r : Reg) (target8 : Byte), s.runState = .running → decode (fetch s).ir = .beq r target8 →
    (stepTransaction s).2 = .continues ∧
    (stepTransaction s).1.pc.toNat =
      (if readReg s r = readReg s 0#4 then target8.toNat else (s.pc.toNat + 2) % 256) ∧
    (readReg s r = readReg s 0#4 →
      (fetch (stepTransaction s).1).ir =
        wordOfBytes (memRead s target8) (memRead s (BitVec.ofNat 8 ((target8.toNat + 1) % 256))) ∧
      (target8 = s.pc → ∀ n, (runSteps n s).runState = .running ∧ (runSteps n s).pc = s.pc))

/-- HALT: run_state becomes HALTED and nothing else changes, whatever bits 11:0 hold (the spec's decision D6); at the step, `ir`
and `pc` are what fetch made them; later steps are refused (D3). run_state is the spec's decision D2. -/
def Obligations.HaltStopsTheMachineInHalted : Prop :=
  (∀ low : BitVec 12, decode (0xC#4 ++ low) = .halt) ∧
  (∀ s : State, ∃ t, exec .halt s = .next t ∧ t.runState = .halted ∧ OnlyRunStateWritten s t) ∧
  ∀ s : State, s.runState = .running → opcode (wordAt s s.pc) = 0xC#4 →
    stepTransaction s = ({ s with ir := wordAt s s.pc, pc := s.pc + 2#8, runState := .halted }, .halt) ∧
    stepTransaction (stepTransaction s).1 = ((stepTransaction s).1, .refused)

/-- Each of the five undefined opcodes, whatever its low 12 bits, takes the fault-halt: run_state becomes FAULTED, `ir` keeps the
offending word, `pc` is its address + 2, registers and memory are unchanged. run_state is the spec's decision D2, the ignored
bits are D6. -/
def Obligations.UndefinedOpcodesTakeTheFaultHalt : Prop :=
  (∀ low : BitVec 12, decode (0x0#4 ++ low) = .undef0 ∧ decode (0x6#4 ++ low) = .undef6 ∧
    decode (0xD#4 ++ low) = .undefD ∧ decode (0xE#4 ++ low) = .undefE ∧ decode (0xF#4 ++ low) = .undefF) ∧
  (∀ i ∈ [Instr.undef0, .undef6, .undefD, .undefE, .undefF], ∀ s : State,
    ∃ t, exec i s = .next t ∧ t.runState = .faulted ∧ OnlyRunStateWritten s t) ∧
  ∀ s : State, s.runState = .running → isUndefinedOpcode (opcode (wordAt s s.pc)) →
    stepTransaction s = ({ s with ir := wordAt s s.pc, pc := s.pc + 2#8, runState := .faulted }, .halt)

/-- A stopped machine never resumes: no number of steps changes it, so a clean end stays a clean end and a fault stays a fault.
That a refused step changes nothing is the spec's decision D3. -/
def Obligations.StoppedMachineNeverResumes : Prop :=
  (∀ (n : Nat) (s : State), s.runState ≠ .running → runSteps n s = s) ∧
  ∀ (n : Nat) (s : State), HaltsCleanlyWithin n s ↔ EndsCleanly (runSteps n s)

/-- `n` steps without a branch advance `pc` by `2n` modulo 256, from any state and across the top of memory. The spec derives
this. -/
def Obligations.StepsWithoutBranchAdvancePcByTwoEach : Prop :=
  ∀ (n : Nat) (s t : State), StraightRun n s t → t.pc.toNat = (s.pc.toNat + 2 * n) % 256

/-! ## Create, load, snapshot -/

/-- Create zeroes every register and every byte, `pc` and `ir`, and the machine is RUNNING; its first step fault-halts with `pc`
2. RUNNING and the step before a load are the spec's decision D4. -/
def Obligations.CreateIsFullyZeroedAndFaultHaltsUnloaded : Prop :=
  create = State.reset ∧ create.pc = 0#8 ∧ create.ir = 0#16 ∧ (∀ r, readReg create r = 0#8) ∧
  (∀ a, memRead create a = 0#8) ∧ create.runState = .running ∧
  ∃ t, step create = .next t ∧ t.runState = .faulted ∧ t.pc = 2#8 ∧ t.ir = 0#16

/-- The address map after a load (R49): word `k` of the program stands at bytes `2k` and `2k + 1`, every byte beyond the program
is 0, and `pc` is 0, where the first step fetches; no range is reserved: every byte of every machine can be written and read
back. -/
def Obligations.LoadedProgramStandsAtZeroWithZerosBeyond : Prop :=
  ∀ (s : State) (words : List Word), words.length ≤ 128 →
    (load s words).1.pc = 0#8 ∧
    (∀ (k : Nat) (w : Word), words[k]? = some w →
      (memRead (load s words).1 (BitVec.ofNat 8 (2 * k))).toNat = w.toNat / 256 ∧
      (memRead (load s words).1 (BitVec.ofNat 8 (2 * k + 1))).toNat = w.toNat % 256) ∧
    (∀ a : Addr, 2 * words.length ≤ a.toNat → memRead (load s words).1 a = 0#8) ∧
    ∀ (t : State) (a : Addr) (v : Byte), memRead (memWrite t a v) a = v

/-- An accepted load, from any state: `ir` is 0, the registers are unchanged (the spec's decision D5, log entry 6), and the
machine is RUNNING, whatever its run state was (D4). -/
def Obligations.AcceptedLoadKeepsRegistersAndSetsRunning : Prop :=
  ∀ (s : State) (words : List Word), words.length ≤ 128 →
    ∃ t, load s words = (t, .accepted) ∧ t.ir = 0#16 ∧ RegsKept s t [] ∧ t.runState = .running

/-- A load is accepted exactly when the program has at most 128 words, in every run state, the empty program included; a
rejected load changes nothing. The results' names are the spec's decision D7, load in every run state D4. -/
def Obligations.LoadIsRejectedWholeWhenTooLong : Prop :=
  ∀ (s : State) (words : List Word),
    ((load s words).2 = .accepted ↔ words.length ≤ 128) ∧ (128 < words.length → load s words = (s, .rejected))

/-- After an accepted load of a program with a first word, the first step executes that word, with `pc` 2. The spec derives
this. -/
def Obligations.FirstStepAfterLoadExecutesWordZero : Prop :=
  ∀ (s : State) (w : Word) (rest : List Word), rest.length < 128 →
    ∃ t, load s (w :: rest) = (t, .accepted) ∧ step t = exec (decode w) { t with ir := w, pc := 2#8 }

/-- The host reads the whole state through `snapshot` and `status`: registers and memory in index order, and two machines with
canonical memory that answer both alike are equal. `status` is the spec's decision D2; canonical memory is log entry 3. -/
def Obligations.SnapshotAndStatusShowTheWholeState : Prop :=
  (∀ s : State, (snapshot s).pc = s.pc ∧ (snapshot s).ir = s.ir ∧
    (∀ r : Reg, (snapshot s).registers[r.toNat]? = some (readReg s r)) ∧
    (∀ a : Addr, (snapshot s).memory[a.toNat]? = some (memRead s a)) ∧ status s = s.runState) ∧
  ∀ s s' : State, s.mem.wf = true → s'.mem.wf = true → snapshot s = snapshot s' → status s = status s' → s = s'

/-- The word the host's checks place is the word the next step runs, and placing it changes no register, no other byte, no `pc`
and no `ir`. The operation is the model's own (log entry 5). -/
def Obligations.PlacedWordIsTheNextInstruction : Prop :=
  ∀ (s : State) (w : Word),
    step (s.withFetchWord 16 w.toNat) =
      exec (decode w) { s.withFetchWord 16 w.toNat with ir := w, pc := s.pc + 2#8 } ∧
    RegsKept s (s.withFetchWord 16 w.toNat) [] ∧
    MemKept s (s.withFetchWord 16 w.toNat) [s.pc, s.pc + 1#8] ∧
    (s.withFetchWord 16 w.toNat).pc = s.pc ∧ (s.withFetchWord 16 w.toNat).ir = s.ir

/-! ## Invariants -/

/-- The invariant holds after reset: memory is canonical (the model's own form, log entry 3) and the machine is RUNNING, not
stopped (the spec's decision D4, log entry 9; run_state itself is D2). -/
def Obligations.ResetSatisfiesTheInvariant : Prop := StateInv State.reset

/-- Every step keeps the invariant: memory stays canonical, and a machine that stops records in `ir` and `pc` the word that
stopped it, which still stands in memory at `pc - 2`. Canonical memory is log entry 3; run_state is the spec's decision D2. -/
def Obligations.StepKeepsTheInvariant : Prop :=
  ∀ s t : State, StateInv s → step s = .next t → StateInv t

/-- The host's operations keep the invariant: create has it, and a load or any number of step transactions keeps it. Canonical
memory is log entry 3; run_state, the refused step and RUNNING after create and load are the spec's decisions D2, D3 and
D4. -/
def Obligations.HostOperationsKeepTheInvariant : Prop :=
  StateInv create ∧ (∀ (s : State) (words : List Word), StateInv s → StateInv (load s words).1) ∧
  ∀ (n : Nat) (s : State), StateInv s → StateInv (runSteps n s)

/-- Canonical memories that read alike at every address are equal data (log entry 3, the model's own form). -/
def Obligations.CanonicalMemoriesThatReadAlikeAreEqual : Prop :=
  ∀ m m' : Memory, m.wf = true → m'.wf = true → (∀ a, a < 256 → m.read a = m'.read a) → m = m'
end

