-- ==== Sys2Proof/Laws/Decode.lean ====
section
/-! SUPPORT. The fields of a word bit by bit, what each format's fields are, and that decoding keeps the opcode. -/

namespace Sys2Proof

variable (w : Word) (i : Nat)

/-! ## The fields bit by bit (R61) -/

theorem getLsbD_highByte : (highByte w).getLsbD i = (decide (i < 8) && w.getLsbD (8 + i)) := by
  simp [highByte]

theorem getLsbD_lowByte : (lowByte w).getLsbD i = (decide (i < 8) && w.getLsbD i) := by
  simp [lowByte]

theorem getLsbD_opcode : (opcode w).getLsbD i = (decide (i < 4) && w.getLsbD (12 + i)) := by
  by_cases h : i < 4
  · rw [opcode, highNibble, BitVec.getLsbD_extractLsb', getLsbD_highByte, decide_eq_true (show 4 + i < 8 by omega), Bool.true_and]
    congr 2; omega
  · rw [BitVec.getLsbD_of_ge _ _ (by omega), decide_eq_false h, Bool.false_and]

theorem getLsbD_fieldA : (fieldA w).getLsbD i = (decide (i < 4) && w.getLsbD (8 + i)) := by
  by_cases h : i < 4
  · rw [fieldA, lowNibble, BitVec.getLsbD_extractLsb', getLsbD_highByte, decide_eq_true (show 0 + i < 8 by omega), Bool.true_and]
    congr 2; omega
  · rw [BitVec.getLsbD_of_ge _ _ (by omega), decide_eq_false h, Bool.false_and]

theorem getLsbD_fieldB : (fieldB w).getLsbD i = (decide (i < 4) && w.getLsbD (4 + i)) := by
  by_cases h : i < 4
  · rw [fieldB, highNibble, BitVec.getLsbD_extractLsb', getLsbD_lowByte, decide_eq_true (show 4 + i < 8 by omega), Bool.true_and]
  · rw [BitVec.getLsbD_of_ge _ _ (by omega), decide_eq_false h, Bool.false_and]

theorem getLsbD_fieldC : (fieldC w).getLsbD i = (decide (i < 4) && w.getLsbD i) := by
  by_cases h : i < 4
  · rw [fieldC, lowNibble, BitVec.getLsbD_extractLsb', getLsbD_lowByte, decide_eq_true (show 0 + i < 8 by omega), Bool.true_and]
    congr 2; omega
  · rw [BitVec.getLsbD_of_ge _ _ (by omega), decide_eq_false h, Bool.false_and]

theorem getLsbD_fieldCount : (fieldCount w).getLsbD i = (decide (i < 3) && w.getLsbD (4 + i)) := by
  by_cases h : i < 3
  · have hb : fieldCount w = (fieldB w).extractLsb' 0 3 := rfl
    rw [hb, BitVec.getLsbD_extractLsb', getLsbD_fieldB, decide_eq_true (show 0 + i < 4 by omega), Bool.true_and,
      Nat.zero_add]
  · rw [BitVec.getLsbD_of_ge _ _ (by omega), decide_eq_false h, Bool.false_and]

/-! ## The formats bit by bit (R63) -/

theorem getLsbD_formatRM (op : BitVec 4) (r : Reg) (byte : Byte) : (formatRM op r byte).getLsbD i =
    if i < 8 then byte.getLsbD i else if i < 12 then r.getLsbD (i - 8) else op.getLsbD (i - 12) := by
  show ((op ++ r : BitVec 8) ++ byte).getLsbD i = _
  rw [BitVec.getLsbD_append]
  split
  · rfl
  · rw [BitVec.getLsbD_append]
    split <;> split <;> first | rfl | omega

theorem getLsbD_formatRRR (op : BitVec 4) (d a b : Reg) : (formatRRR op d a b).getLsbD i =
    if i < 4 then b.getLsbD i else if i < 8 then a.getLsbD (i - 4) else if i < 12 then d.getLsbD (i - 8)
    else op.getLsbD (i - 12) := by
  show (((op ++ d : BitVec 8) ++ a : BitVec 12) ++ b).getLsbD i = _
  rw [BitVec.getLsbD_append]
  split
  · rfl
  · rw [BitVec.getLsbD_append]
    split <;> split <;> first | rfl | omega | skip
    rw [BitVec.getLsbD_append]
    split <;> split <;> first | rfl | omega

theorem formatMV_eq (op : BitVec 4) (s d : Reg) : formatMV op s d = formatRRR op 0x0#4 s d := rfl

theorem formatN_eq (op : BitVec 4) : formatN op = formatRRR op 0x0#4 0x0#4 0x0#4 := by
  revert op; decide

theorem formatROT_eq (op : BitVec 4) (r : Reg) (n : Count) :
    formatROT op r n = formatRRR op r (0#1 ++ n) 0x0#4 := by
  show (((op ++ r : BitVec 8) ++ 0#1 : BitVec 9) ++ n : BitVec 12) ++ 0x0#4 = (((op ++ r : BitVec 8) ++ (0#1 ++ n : BitVec 4) : BitVec 12) ++ 0x0#4)
  congr 1
  exact BitVec.append_assoc

/-! ## The fields of each format -/

@[simp] theorem opcode_formatRM (op : BitVec 4) (r : Reg) (byte : Byte) : opcode (formatRM op r byte) = op := by
  apply BitVec.eq_of_getLsbD_eq
  intro i h
  rw [getLsbD_opcode, getLsbD_formatRM, if_neg (by omega), if_neg (by omega), decide_eq_true h, Bool.true_and]
  congr 1; omega

@[simp] theorem fieldA_formatRM (op : BitVec 4) (r : Reg) (byte : Byte) : fieldA (formatRM op r byte) = r := by
  apply BitVec.eq_of_getLsbD_eq
  intro i h
  rw [getLsbD_fieldA, getLsbD_formatRM, if_neg (by omega), if_pos (by omega), decide_eq_true h, Bool.true_and]
  congr 1; omega

@[simp] theorem lowByte_formatRM (op : BitVec 4) (r : Reg) (byte : Byte) : lowByte (formatRM op r byte) = byte := by
  apply BitVec.eq_of_getLsbD_eq
  intro i h
  rw [getLsbD_lowByte, getLsbD_formatRM, if_pos (by omega), decide_eq_true h, Bool.true_and]

@[simp] theorem opcode_formatRRR (op : BitVec 4) (d a b : Reg) : opcode (formatRRR op d a b) = op := by
  apply BitVec.eq_of_getLsbD_eq
  intro i h
  rw [getLsbD_opcode, getLsbD_formatRRR, if_neg (by omega), if_neg (by omega), if_neg (by omega), decide_eq_true h, Bool.true_and]
  congr 1; omega

@[simp] theorem fieldA_formatRRR (op : BitVec 4) (d a b : Reg) : fieldA (formatRRR op d a b) = d := by
  apply BitVec.eq_of_getLsbD_eq
  intro i h
  rw [getLsbD_fieldA, getLsbD_formatRRR, if_neg (by omega), if_neg (by omega), if_pos (by omega), decide_eq_true h, Bool.true_and]
  congr 1; omega

@[simp] theorem fieldB_formatRRR (op : BitVec 4) (d a b : Reg) : fieldB (formatRRR op d a b) = a := by
  apply BitVec.eq_of_getLsbD_eq
  intro i h
  rw [getLsbD_fieldB, getLsbD_formatRRR, if_neg (by omega), if_pos (by omega), decide_eq_true h, Bool.true_and]
  congr 1; omega

@[simp] theorem fieldC_formatRRR (op : BitVec 4) (d a b : Reg) : fieldC (formatRRR op d a b) = b := by
  apply BitVec.eq_of_getLsbD_eq
  intro i h
  rw [getLsbD_fieldC, getLsbD_formatRRR, if_pos (by omega), decide_eq_true h, Bool.true_and]

/-! ## Decode and the opcode (R62, R66) -/

theorem opcode_eq_bits (b3 b2 b1 b0 : Bool) (h3 : w.getLsbD 15 = b3) (h2 : w.getLsbD 14 = b2) (h1 : w.getLsbD 13 = b1)
    (h0 : w.getLsbD 12 = b0) (op : BitVec 4)
    (hop : op.getLsbD 3 = b3 ∧ op.getLsbD 2 = b2 ∧ op.getLsbD 1 = b1 ∧ op.getLsbD 0 = b0) : opcode w = op := by
  apply BitVec.eq_of_getLsbD_eq
  intro i h
  obtain ⟨e3, e2, e1, e0⟩ := hop
  rw [getLsbD_opcode]
  have : i = 0 ∨ i = 1 ∨ i = 2 ∨ i = 3 := by omega
  rcases this with rfl | rfl | rfl | rfl <;> simp_all

/-- Decode selects the row from the opcode: the decoded instruction's opcode is the word's. -/
theorem decode_opcode : (decode w).opcode = opcode w := by
  unfold decode
  split <;> exact (opcode_eq_bits w _ _ _ _ ‹_› ‹_› ‹_› ‹_› _ (by simp only [Instr.opcode]; decide)).symm

/-! ## Decoding a word whose opcode is known -/

theorem bits_of_opcode {op : BitVec 4} (h : opcode w = op) :
    w.getLsbD 15 = op.getLsbD 3 ∧ w.getLsbD 14 = op.getLsbD 2 ∧ w.getLsbD 13 = op.getLsbD 1 ∧
      w.getLsbD 12 = op.getLsbD 0 := by
  subst h
  refine ⟨?_, ?_, ?_, ?_⟩ <;> rw [getLsbD_opcode] <;> rfl

variable {w}

theorem decode_of_opcode_undef0 (h : opcode w = 0x0#4) : decode w = .undef0 := by
  obtain ⟨h3, h2, h1, h0⟩ := bits_of_opcode w h
  rw [decode, h3, h2, h1, h0]; rfl

theorem decode_of_opcode_load (h : opcode w = 0x1#4) : decode w = .load (fieldA w) (lowByte w) := by
  obtain ⟨h3, h2, h1, h0⟩ := bits_of_opcode w h
  rw [decode, h3, h2, h1, h0]; rfl

theorem decode_of_opcode_set (h : opcode w = 0x2#4) : decode w = .set (fieldA w) (lowByte w) := by
  obtain ⟨h3, h2, h1, h0⟩ := bits_of_opcode w h
  rw [decode, h3, h2, h1, h0]; rfl

theorem decode_of_opcode_store (h : opcode w = 0x3#4) : decode w = .store (fieldA w) (lowByte w) := by
  obtain ⟨h3, h2, h1, h0⟩ := bits_of_opcode w h
  rw [decode, h3, h2, h1, h0]; rfl

theorem decode_of_opcode_move (h : opcode w = 0x4#4) : decode w = .move (fieldC w) (fieldB w) := by
  obtain ⟨h3, h2, h1, h0⟩ := bits_of_opcode w h
  rw [decode, h3, h2, h1, h0]; rfl

theorem decode_of_opcode_add (h : opcode w = 0x5#4) : decode w = .add (fieldA w) (fieldB w) (fieldC w) := by
  obtain ⟨h3, h2, h1, h0⟩ := bits_of_opcode w h
  rw [decode, h3, h2, h1, h0]; rfl

theorem decode_of_opcode_undef6 (h : opcode w = 0x6#4) : decode w = .undef6 := by
  obtain ⟨h3, h2, h1, h0⟩ := bits_of_opcode w h
  rw [decode, h3, h2, h1, h0]; rfl

theorem decode_of_opcode_or (h : opcode w = 0x7#4) : decode w = .or (fieldA w) (fieldB w) (fieldC w) := by
  obtain ⟨h3, h2, h1, h0⟩ := bits_of_opcode w h
  rw [decode, h3, h2, h1, h0]; rfl

theorem decode_of_opcode_and (h : opcode w = 0x8#4) : decode w = .and (fieldA w) (fieldB w) (fieldC w) := by
  obtain ⟨h3, h2, h1, h0⟩ := bits_of_opcode w h
  rw [decode, h3, h2, h1, h0]; rfl

theorem decode_of_opcode_xor (h : opcode w = 0x9#4) : decode w = .xor (fieldA w) (fieldB w) (fieldC w) := by
  obtain ⟨h3, h2, h1, h0⟩ := bits_of_opcode w h
  rw [decode, h3, h2, h1, h0]; rfl

theorem decode_of_opcode_ror (h : opcode w = 0xA#4) : decode w = .ror (fieldA w) (fieldCount w) := by
  obtain ⟨h3, h2, h1, h0⟩ := bits_of_opcode w h
  rw [decode, h3, h2, h1, h0]; rfl

theorem decode_of_opcode_beq (h : opcode w = 0xB#4) : decode w = .beq (fieldA w) (lowByte w) := by
  obtain ⟨h3, h2, h1, h0⟩ := bits_of_opcode w h
  rw [decode, h3, h2, h1, h0]; rfl

theorem decode_of_opcode_halt (h : opcode w = 0xC#4) : decode w = .halt := by
  obtain ⟨h3, h2, h1, h0⟩ := bits_of_opcode w h
  rw [decode, h3, h2, h1, h0]; rfl

theorem decode_of_opcode_undefD (h : opcode w = 0xD#4) : decode w = .undefD := by
  obtain ⟨h3, h2, h1, h0⟩ := bits_of_opcode w h
  rw [decode, h3, h2, h1, h0]; rfl

theorem decode_of_opcode_undefE (h : opcode w = 0xE#4) : decode w = .undefE := by
  obtain ⟨h3, h2, h1, h0⟩ := bits_of_opcode w h
  rw [decode, h3, h2, h1, h0]; rfl

theorem decode_of_opcode_undefF (h : opcode w = 0xF#4) : decode w = .undefF := by
  obtain ⟨h3, h2, h1, h0⟩ := bits_of_opcode w h
  rw [decode, h3, h2, h1, h0]; rfl

end Sys2Proof
end

