-- ==== Sys2Proof/Laws/Memory.lean ====
section
/-! SUPPORT. The laws of memory as data: a read after a write, and that every memory operation keeps the canonical form. -/

namespace Sys2Proof.Machine.Memory

variable {m : Memory} {a b low : Nat} {v : Byte}

/-! ## Reading -/

@[simp] theorem read_nil (a : Nat) : Memory.read [] a = Memory.unlisted := rfl

theorem read_remove (m : Memory) (a b : Nat) :
    (m.remove a).read b = if b = a then Memory.unlisted else m.read b := by
  induction m with
  | nil => simp [Memory.remove]
  | cons c rest ih =>
    obtain ⟨k, u⟩ := c
    by_cases hk : k = a
    · by_cases hb : b = a
      · subst hb; simpa [Memory.remove, hk] using ih
      · have hkb : k ≠ b := by omega
        simpa [Memory.remove, hk, hb, Memory.read, Ne.symm hb] using ih
    · by_cases hb : b = a
      · subst hb; simpa [Memory.remove, hk, Memory.read] using ih
      · simp [Memory.remove, hk, Memory.read, ih, hb]

theorem read_insert_of_ne (m : Memory) (hb : b ≠ a) : (m.insert a v).read b = m.read b := by
  induction m with
  | nil => simp [Memory.insert, Memory.read, Ne.symm hb]
  | cons c rest ih =>
    obtain ⟨k, u⟩ := c
    by_cases hk : k < a
    · simp [Memory.insert, hk, Memory.read, ih]
    · simp [Memory.insert, hk, Memory.read, Ne.symm hb]

theorem read_insert_self (h : ∀ c ∈ m, c.1 ≠ a) : (m.insert a v).read a = v := by
  induction m with
  | nil => simp [Memory.insert, Memory.read]
  | cons c rest ih =>
    obtain ⟨k, u⟩ := c
    have hne : k ≠ a := h (k, u) (by simp)
    have hrest : ∀ c ∈ rest, c.1 ≠ a := fun c hc => h c (by simp [hc])
    by_cases hk : k < a
    · simp [Memory.insert, hk, Memory.read, hne, ih hrest]
    · simp [Memory.insert, hk, Memory.read]

theorem ne_of_mem_remove (m : Memory) (a : Nat) : ∀ c ∈ m.remove a, c.1 ≠ a := by
  induction m with
  | nil => simp [Memory.remove]
  | cons c rest ih =>
    obtain ⟨k, u⟩ := c
    by_cases hk : k = a
    · simpa [Memory.remove, hk] using ih
    · simp only [Memory.remove, hk, if_false, List.mem_cons]
      rintro c (rfl | hc)
      · exact hk
      · exact ih c hc

/-- A read after a write gives the value written at that address and what was there before at every other. -/
theorem read_write (m : Memory) (a b : Nat) (v : Byte) :
    (m.write a v).read b = if b = a then v else m.read b := by
  by_cases hv : v = Memory.unlisted
  · simp [Memory.write, hv, read_remove]
  · by_cases hb : b = a
    · subst hb
      simp [Memory.write, hv, read_insert_self (ne_of_mem_remove m b)]
    · simp [Memory.write, hv, hb, read_insert_of_ne _ hb, read_remove]

/-! ## The canonical form -/

theorem wfFrom_cons {k : Nat} {u : Byte} {rest : Memory} :
    Memory.wfFrom low ((k, u) :: rest) = true ↔
      low ≤ k ∧ k < Config.memSize ∧ u ≠ Memory.unlisted ∧ Memory.wfFrom (k + 1) rest = true := by
  simp [Memory.wfFrom, and_assoc]

theorem wfFrom_mono {low' : Nat} (h : Memory.wfFrom low m = true) (hle : low' ≤ low) :
    Memory.wfFrom low' m = true := by
  cases m with
  | nil => rfl
  | cons c rest =>
    obtain ⟨k, u⟩ := c
    rw [wfFrom_cons] at h ⊢
    exact ⟨by omega, h.2⟩

theorem wfFrom_remove (h : Memory.wfFrom low m = true) (a : Nat) : Memory.wfFrom low (m.remove a) = true := by
  induction m generalizing low with
  | nil => rfl
  | cons c rest ih =>
    obtain ⟨k, u⟩ := c
    rw [wfFrom_cons] at h
    obtain ⟨hlow, hmax, hu, hrest⟩ := h
    by_cases hk : k = a
    · simp only [Memory.remove, hk, if_true]
      exact wfFrom_mono (ih hrest) (by omega)
    · simp only [Memory.remove, hk, if_false]
      exact wfFrom_cons.2 ⟨hlow, hmax, hu, ih hrest⟩

theorem wfFrom_insert (h : Memory.wfFrom low m = true) (hne : ∀ c ∈ m, c.1 ≠ a) (hlow : low ≤ a)
    (ha : a < Config.memSize) (hv : v ≠ Memory.unlisted) : Memory.wfFrom low (m.insert a v) = true := by
  induction m generalizing low with
  | nil => exact wfFrom_cons.2 ⟨hlow, ha, hv, rfl⟩
  | cons c rest ih =>
    obtain ⟨k, u⟩ := c
    have hka : k ≠ a := hne (k, u) (by simp)
    obtain ⟨hl, hmax, hu, hrest⟩ := wfFrom_cons.1 h
    by_cases hk : k < a
    · simp only [Memory.insert, hk, if_true]
      exact wfFrom_cons.2 ⟨hl, hmax, hu, ih hrest (fun c hc => hne c (by simp [hc])) (by omega)⟩
    · simp only [Memory.insert, hk, if_false]
      exact wfFrom_cons.2 ⟨hlow, ha, hv, wfFrom_cons.2 ⟨by omega, hmax, hu, hrest⟩⟩

/-- A write inside memory keeps the canonical form. -/
theorem wf_write (h : m.wf = true) (ha : a < Config.memSize) (v : Byte) : (m.write a v).wf = true := by
  unfold Memory.wf at *
  unfold Memory.write
  split
  · exact wfFrom_remove h a
  · exact wfFrom_insert (wfFrom_remove h a) (ne_of_mem_remove m a) (Nat.zero_le a) ha ‹_›

@[simp] theorem wf_nil : Memory.wf [] = true := rfl

/-- An address below every cell reads as unlisted. -/
theorem read_of_wfFrom (h : Memory.wfFrom low m = true) (ha : a < low) : m.read a = Memory.unlisted := by
  induction m generalizing low with
  | nil => rfl
  | cons c rest ih =>
    obtain ⟨k, u⟩ := c
    obtain ⟨hl, -, -, hrest⟩ := wfFrom_cons.1 h
    have : k ≠ a := by omega
    simp [Memory.read, this, ih hrest (by omega)]

end Sys2Proof.Machine.Memory
end

