-- ==== Sys2Proof/Laws/State.lean ====
section
/-! SUPPORT. One lemma per field per update of the state, so that no proof unfolds a record update. -/

namespace Sys2Proof.Machine

variable (s : State) (r : Reg) (a : Addr) (v : Byte) (w : Word)

/-! ## writeReg -/
@[simp] theorem writeReg_pc : (writeReg s r v).pc = s.pc := rfl
@[simp] theorem writeReg_ir : (writeReg s r v).ir = s.ir := rfl
@[simp] theorem writeReg_mem : (writeReg s r v).mem = s.mem := rfl
@[simp] theorem writeReg_runState : (writeReg s r v).runState = s.runState := rfl

/-! ## memWrite -/
@[simp] theorem memWrite_pc : (memWrite s a v).pc = s.pc := rfl
@[simp] theorem memWrite_ir : (memWrite s a v).ir = s.ir := rfl
@[simp] theorem memWrite_x : (memWrite s a v).x = s.x := rfl
@[simp] theorem memWrite_mem : (memWrite s a v).mem = s.mem.write a.toNat v := rfl
@[simp] theorem memWrite_runState : (memWrite s a v).runState = s.runState := rfl

/-! ## setPc -/
@[simp] theorem setPc_pc : (setPc s a).pc = a := rfl
@[simp] theorem setPc_ir : (setPc s a).ir = s.ir := rfl
@[simp] theorem setPc_x : (setPc s a).x = s.x := rfl
@[simp] theorem setPc_mem : (setPc s a).mem = s.mem := rfl
@[simp] theorem setPc_runState : (setPc s a).runState = s.runState := rfl

/-! ## fetch -/
@[simp] theorem fetch_pc : (fetch s).pc = s.pc + 2 := rfl
@[simp] theorem fetch_ir : (fetch s).ir = wordAt s s.pc := rfl
@[simp] theorem fetch_x : (fetch s).x = s.x := rfl
@[simp] theorem fetch_mem : (fetch s).mem = s.mem := rfl
@[simp] theorem fetch_runState : (fetch s).runState = s.runState := rfl

/-! ## haltHalted and raiseFaultHalt -/
@[simp] theorem haltHalted_pc : (haltHalted s).pc = s.pc := rfl
@[simp] theorem haltHalted_ir : (haltHalted s).ir = s.ir := rfl
@[simp] theorem haltHalted_x : (haltHalted s).x = s.x := rfl
@[simp] theorem haltHalted_mem : (haltHalted s).mem = s.mem := rfl
@[simp] theorem haltHalted_runState : (haltHalted s).runState = .halted := rfl
@[simp] theorem raiseFaultHalt_pc : (raiseFaultHalt s).pc = s.pc := rfl
@[simp] theorem raiseFaultHalt_ir : (raiseFaultHalt s).ir = s.ir := rfl
@[simp] theorem raiseFaultHalt_x : (raiseFaultHalt s).x = s.x := rfl
@[simp] theorem raiseFaultHalt_mem : (raiseFaultHalt s).mem = s.mem := rfl
@[simp] theorem raiseFaultHalt_runState : (raiseFaultHalt s).runState = .faulted := rfl

/-! ## setRunning -/
@[simp] theorem setRunning_pc : (setRunning s).pc = s.pc := rfl
@[simp] theorem setRunning_ir : (setRunning s).ir = s.ir := rfl
@[simp] theorem setRunning_x : (setRunning s).x = s.x := rfl
@[simp] theorem setRunning_mem : (setRunning s).mem = s.mem := rfl
@[simp] theorem setRunning_runState : (setRunning s).runState = .running := rfl

/-! ## placeWord -/
@[simp] theorem placeWord_pc : (placeWord s a w).pc = s.pc := rfl
@[simp] theorem placeWord_ir : (placeWord s a w).ir = s.ir := rfl
@[simp] theorem placeWord_x : (placeWord s a w).x = s.x := rfl
@[simp] theorem placeWord_runState : (placeWord s a w).runState = s.runState := rfl

end Sys2Proof.Machine
end

