-- ==== Sys2Proof/Laws/Ops.lean ====
section
/-! SUPPORT. One lemma for each shared operation over the state: what a register or a byte of memory reads as after it, and
that memory keeps its canonical form. -/

namespace Sys2Proof.Machine

variable (s : State) (r q : Reg) (a b : Addr) (v : Byte) (w : Word)

/-! ## Registers -/

/-- A register read after a register write: no register is hardwired and none is an alias (R22). -/
theorem readReg_writeReg : readReg (writeReg s r v) q = if q = r then v else readReg s q := by
  unfold readReg writeReg
  by_cases h : q = r
  · subst h; simp
  · have : r.toNat ≠ q.toNat := fun e => h (BitVec.eq_of_toNat_eq e.symm)
    simp [h, this]

@[simp] theorem readReg_writeReg_self : readReg (writeReg s r v) r = v := by simp [readReg_writeReg]

theorem readReg_congr_x {s t : State} (h : s.x = t.x) (q : Reg) : readReg s q = readReg t q := by
  unfold readReg; simp [h]

@[simp] theorem readReg_memWrite : readReg (memWrite s a v) q = readReg s q := rfl
@[simp] theorem readReg_setPc : readReg (setPc s a) q = readReg s q := rfl
@[simp] theorem readReg_fetch : readReg (fetch s) q = readReg s q := rfl
@[simp] theorem readReg_haltHalted : readReg (haltHalted s) q = readReg s q := rfl
@[simp] theorem readReg_raiseFaultHalt : readReg (raiseFaultHalt s) q = readReg s q := rfl
@[simp] theorem readReg_setRunning : readReg (setRunning s) q = readReg s q := rfl

/-! ## Memory -/

/-- A byte read after a byte write (R50). -/
theorem memRead_memWrite : memRead (memWrite s a v) b = if b = a then v else memRead s b := by
  unfold memRead memWrite
  simp [Memory.read_write, BitVec.toNat_inj]

@[simp] theorem memRead_memWrite_self : memRead (memWrite s a v) a = v := by simp [memRead_memWrite]

@[simp] theorem memRead_writeReg : memRead (writeReg s r v) b = memRead s b := rfl
@[simp] theorem memRead_setPc : memRead (setPc s a) b = memRead s b := rfl
@[simp] theorem memRead_fetch : memRead (fetch s) b = memRead s b := rfl
@[simp] theorem memRead_haltHalted : memRead (haltHalted s) b = memRead s b := rfl
@[simp] theorem memRead_raiseFaultHalt : memRead (raiseFaultHalt s) b = memRead s b := rfl
@[simp] theorem memRead_setRunning : memRead (setRunning s) b = memRead s b := rfl

theorem wordAt_congr {s t : State} (h : ∀ a, memRead s a = memRead t a) (a : Addr) : wordAt s a = wordAt t a := by
  simp [wordAt, h]

@[simp] theorem wordAt_fetch : wordAt (fetch s) b = wordAt s b := rfl
@[simp] theorem wordAt_haltHalted : wordAt (haltHalted s) b = wordAt s b := rfl
@[simp] theorem wordAt_raiseFaultHalt : wordAt (raiseFaultHalt s) b = wordAt s b := rfl
@[simp] theorem wordAt_setRunning : wordAt (setRunning s) b = wordAt s b := rfl

/-- A memory write keeps the canonical form: every 8-bit address is inside memory (R42). -/
theorem memWrite_wf {s : State} (h : s.mem.wf = true) (a : Addr) (v : Byte) : (memWrite s a v).mem.wf = true :=
  Memory.wf_write h a.isLt v

/-- A byte read after a word was placed. -/
theorem memRead_placeWord :
    memRead (placeWord s a w) b = if b = a + 1#8 then lowByte w else if b = a then highByte w else memRead s b := by
  simp [placeWord, memRead_memWrite]

theorem placeWord_wf {s : State} (h : s.mem.wf = true) (a : Addr) (w : Word) : (placeWord s a w).mem.wf = true :=
  memWrite_wf (memWrite_wf h a _) _ _

/-- The two bytes of a word form the word again (R43). -/
@[simp] theorem wordOfBytes_high_low : wordOfBytes (highByte w) (lowByte w) = w := by
  unfold wordOfBytes highByte lowByte
  ext i hi
  simp only [BitVec.getElem_append, BitVec.getElem_extractLsb']
  split
  · simp [BitVec.getLsbD_eq_getElem, hi]
  · rw [show 8 + (i - 8) = i by omega]
    simp [BitVec.getLsbD_eq_getElem, hi]

theorem getLsbD_wordOfBytes (hi lo : Byte) (i : Nat) :
    (wordOfBytes hi lo).getLsbD i = if i < 8 then lo.getLsbD i else hi.getLsbD (i - 8) :=
  BitVec.getLsbD_append

@[simp] theorem highByte_wordOfBytes (hi lo : Byte) : highByte (wordOfBytes hi lo) = hi := by
  ext i h
  simp [highByte, getLsbD_wordOfBytes, BitVec.getLsbD_eq_getElem, h]

@[simp] theorem lowByte_wordOfBytes (hi lo : Byte) : lowByte (wordOfBytes hi lo) = lo := by
  ext i h
  simp [lowByte, getLsbD_wordOfBytes, BitVec.getLsbD_eq_getElem, h]

/-- The word at an address where a word was just placed. -/
@[simp] theorem wordAt_placeWord : wordAt (placeWord s a w) a = w := by
  have h : a ≠ a + 1#8 := by intro e; have := congrArg BitVec.toNat e; simp at this; omega
  simp [wordAt, memRead_placeWord, h]

/-! ## Operand forms (R64) -/

@[simp] theorem regOperand_eq : regOperand s r = readReg s r := rfl
@[simp] theorem immOperand_eq : immOperand v = v := rfl
@[simp] theorem absAddr_eq (addr8 : Byte) : absAddr addr8 = addr8 := rfl
@[simp] theorem branchTarget_eq (target8 : Byte) : branchTarget target8 = target8 := rfl
@[simp] theorem rotateCount_eq (n : Count) : rotateCount n = n.toNat := rfl

theorem equalsRegZero_iff : equalsRegZero s r = true ↔ readReg s r = readReg s 0#4 := by
  simp [equalsRegZero]

/-! ## Placing a program -/

theorem placeWords_wf (words : List Word) :
    ∀ {s : State}, s.mem.wf = true → ∀ a, (placeWords s a words).mem.wf = true := by
  induction words with
  | nil => exact fun h _ => h
  | cons w rest ih => exact fun h a => ih (placeWord_wf h a w) (a + 2#8)

@[simp] theorem placeWords_pc (words : List Word) : ∀ s a, (placeWords s a words).pc = s.pc := by
  induction words with
  | nil => exact fun _ _ => rfl
  | cons w rest ih => exact fun s a => by simp [placeWords, ih]

@[simp] theorem placeWords_ir (words : List Word) : ∀ s a, (placeWords s a words).ir = s.ir := by
  induction words with
  | nil => exact fun _ _ => rfl
  | cons w rest ih => exact fun s a => by simp [placeWords, ih]

@[simp] theorem placeWords_x (words : List Word) : ∀ s a, (placeWords s a words).x = s.x := by
  induction words with
  | nil => exact fun _ _ => rfl
  | cons w rest ih => exact fun s a => by simp [placeWords, ih]

@[simp] theorem placeWords_runState (words : List Word) : ∀ s a, (placeWords s a words).runState = s.runState := by
  induction words with
  | nil => exact fun _ _ => rfl
  | cons w rest ih => exact fun s a => by simp [placeWords, ih]

/-- A byte below the place of the first word, with the words all below the top of memory, is as before. -/
theorem memRead_placeWords_below (words : List Word) :
    ∀ (s : State) (a b : Addr), b.toNat < a.toNat → a.toNat + 2 * words.length ≤ 256 →
      memRead (placeWords s a words) b = memRead s b := by
  induction words with
  | nil => exact fun _ _ _ _ _ => rfl
  | cons w rest ih =>
    intro s a b hb hlen
    simp only [List.length_cons] at hlen
    by_cases hrest : rest = []
    · subst hrest
      have h1 : b ≠ a := by rintro rfl; omega
      have h2 : b ≠ a + 1#8 := by rintro rfl; simp at hb hlen; omega
      simp [placeWords, memRead_placeWord, h1, h2]
    · have hpos : 0 < rest.length := List.length_pos_iff.2 hrest
      have ha : (a + 2#8).toNat = a.toNat + 2 := by simp; omega
      have h1 : b ≠ a := by rintro rfl; omega
      have h2 : b ≠ a + 1#8 := by
        rintro rfl
        have : (a + 1#8).toNat = a.toNat + 1 := by simp; omega
        omega
      rw [placeWords, ih _ _ _ (by omega) (by omega), memRead_placeWord]
      simp [h1, h2]

end Sys2Proof.Machine
end

