-- ==== Sys2Proof/Laws/Exec.lean ====
section
/-! SUPPORT. What the execute stage can do, said once: whatever the instruction, its next state has one of six shapes. -/

namespace Sys2Proof.Machine

/-- The shapes of a next state of the execute stage, with the instructions that have each. -/
theorem exec_cases {i : Instr} {s t : State} (h : exec i s = .next t) :
    (∃ r v, i.regWritten = some r ∧ t = writeReg s r v) ∨
    (∃ src addr8, i = .store src addr8 ∧ t = memWrite s (absAddr addr8) (regOperand s src)) ∨
    (∃ r target8, i = .beq r target8 ∧ equalsRegZero s r = true ∧ t = setPc s (branchTarget target8)) ∨
    (∃ r target8, i = .beq r target8 ∧ equalsRegZero s r = false ∧ t = s) ∨
    (i = .halt ∧ t = haltHalted s) ∨
    (i.runStateAfter = .faulted ∧ t = raiseFaultHalt s) := by
  cases i with
  | load d addr8 => cases h; exact .inl ⟨d, _, rfl, rfl⟩
  | set d imm8 => cases h; exact .inl ⟨d, _, rfl, rfl⟩
  | move d src => cases h; exact .inl ⟨d, _, rfl, rfl⟩
  | add d a b => cases h; exact .inl ⟨d, _, rfl, rfl⟩
  | or d a b => cases h; exact .inl ⟨d, _, rfl, rfl⟩
  | and d a b => cases h; exact .inl ⟨d, _, rfl, rfl⟩
  | xor d a b => cases h; exact .inl ⟨d, _, rfl, rfl⟩
  | ror r n => cases h; exact .inl ⟨r, _, rfl, rfl⟩
  | store src addr8 => cases h; exact .inr (.inl ⟨src, addr8, rfl, rfl⟩)
  | beq r target8 =>
    cases hc : equalsRegZero s r with
    | true =>
      simp only [exec, execBeq, hc, if_true] at h
      cases h
      exact .inr (.inr (.inl ⟨r, target8, rfl, hc, rfl⟩))
    | false =>
      simp only [exec, execBeq, hc, Bool.false_eq_true, if_false] at h
      cases h
      exact .inr (.inr (.inr (.inl ⟨r, target8, rfl, hc, rfl⟩)))
  | halt => cases h; exact .inr (.inr (.inr (.inr (.inl ⟨rfl, rfl⟩))))
  | undef0 => cases h; exact .inr (.inr (.inr (.inr (.inr ⟨rfl, rfl⟩))))
  | undef6 => cases h; exact .inr (.inr (.inr (.inr (.inr ⟨rfl, rfl⟩))))
  | undefD => cases h; exact .inr (.inr (.inr (.inr (.inr ⟨rfl, rfl⟩))))
  | undefE => cases h; exact .inr (.inr (.inr (.inr (.inr ⟨rfl, rfl⟩))))
  | undefF => cases h; exact .inr (.inr (.inr (.inr (.inr ⟨rfl, rfl⟩))))

/-- The execute stage keeps memory's canonical form. -/
theorem exec_mem_wf {i : Instr} {s t : State} (h : exec i s = .next t) (hwf : s.mem.wf = true) : t.mem.wf = true := by
  obtain ⟨r, v, -, rfl⟩ | ⟨src, a, -, rfl⟩ | ⟨r, a, -, -, rfl⟩ | ⟨r, a, -, -, rfl⟩ | ⟨-, rfl⟩ | ⟨-, rfl⟩ := exec_cases h
  · exact hwf
  · exact memWrite_wf hwf _ _
  · exact hwf
  · exact hwf
  · exact hwf
  · exact hwf

end Sys2Proof.Machine
end

