-- ==== Sys2Proof/Laws/PerInstr.lean ====
section
/-! SUPPORT. A law of every instruction as syntax, one lemma per constructor: the word the encoder gives it carries its row's
opcode, belongs to its row of the opcode table, and has every ignored bit 0 (30_encoding.md rules R66 and R70). -/

namespace Sys2Proof.Laws.CanonicalWord

/-- The encoder's word has the row's opcode, and the bits its format ignores are 0. -/
def Statement (i : Instr) : Prop := opcode (encode i) = i.opcode ∧ encode i &&& i.ignoredMask = 0#16

theorem undef0 : Statement .undef0 := by unfold Statement; decide

theorem load (d : Reg) (addr8 : Byte) : Statement (.load d addr8) := ⟨opcode_formatRM _ _ _, BitVec.and_zero⟩

theorem set (d : Reg) (imm8 : Byte) : Statement (.set d imm8) := ⟨opcode_formatRM _ _ _, BitVec.and_zero⟩

theorem store (s : Reg) (addr8 : Byte) : Statement (.store s addr8) := ⟨opcode_formatRM _ _ _, BitVec.and_zero⟩

theorem move (d s : Reg) : Statement (.move d s) := by
  refine ⟨opcode_formatRRR _ _ _ _, ?_⟩
  revert d s
  decide

theorem add (d a b : Reg) : Statement (.add d a b) := ⟨opcode_formatRRR _ _ _ _, BitVec.and_zero⟩

theorem undef6 : Statement .undef6 := by unfold Statement; decide

theorem or (d a b : Reg) : Statement (.or d a b) := ⟨opcode_formatRRR _ _ _ _, BitVec.and_zero⟩

theorem and (d a b : Reg) : Statement (.and d a b) := ⟨opcode_formatRRR _ _ _ _, BitVec.and_zero⟩

theorem xor (d a b : Reg) : Statement (.xor d a b) := ⟨opcode_formatRRR _ _ _ _, BitVec.and_zero⟩

theorem ror (r : Reg) (n : Count) : Statement (.ror r n) := by
  refine ⟨by rw [encode, formatROT_eq, opcode_formatRRR]; rfl, ?_⟩
  revert r n
  decide

theorem beq (r : Reg) (target8 : Byte) : Statement (.beq r target8) := ⟨opcode_formatRM _ _ _, BitVec.and_zero⟩

theorem halt : Statement .halt := by unfold Statement; decide

theorem undefD : Statement .undefD := by unfold Statement; decide

theorem undefE : Statement .undefE := by unfold Statement; decide

theorem undefF : Statement .undefF := by unfold Statement; decide

end Sys2Proof.Laws.CanonicalWord
end

