-- ==== Sys2Proof/Laws/Step.lean ====
section
/-! SUPPORT. What one step can do: a running machine executes the word it fetched, a stopped one is refused. -/

namespace Sys2Proof.Machine

theorem step_running {s : State} (h : s.runState = .running) :
    step s = exec (decode (wordAt s s.pc)) (fetch s) := by
  simp [step, h]

theorem step_stopped {s : State} (h : s.runState ≠ .running) : step s = .refused .stepRefused := by
  cases hr : s.runState with
  | running => exact absurd hr h
  | halted => simp [step, hr]
  | faulted => simp [step, hr]

/-- A step that answers a next state started from RUNNING and executed the word at `pc` on the state fetch left. -/
theorem step_cases {s t : State} (h : step s = .next t) :
    s.runState = .running ∧ exec (decode (wordAt s s.pc)) (fetch s) = .next t := by
  by_cases hr : s.runState = .running
  · exact ⟨hr, by rw [← step_running hr]; exact h⟩
  · rw [step_stopped hr] at h
    cases h

/-- The host's step transaction follows `step`: a next state is its state. -/
theorem stepTransaction_next {s t : State} (h : step s = .next t) :
    stepTransaction s = (t, if t.runState = .running then .continues else .halt) := by
  unfold stepTransaction
  rw [h]

/-- The host's step transaction on a stopped machine. -/
theorem stepTransaction_stopped {s : State} (h : s.runState ≠ .running) : stepTransaction s = (s, .refused) := by
  unfold stepTransaction
  rw [step_stopped h]

/-- One step transaction keeps memory's canonical form. -/
theorem step_mem_wf {s t : State} (h : step s = .next t) (hwf : s.mem.wf = true) : t.mem.wf = true :=
  exec_mem_wf (step_cases h).2 hwf

end Sys2Proof.Machine
end

