-- ==== Sys2Proof/Tests/Slice0.lean ====
section
/-! SUPPORT. The model's own tests. Words are written out from the encoding columns of 30_encoding.md rules R63 and R69, results
are the vectors of 95_test_vectors.md (V-, S- names), and every statement with hypotheses has a witness that meets them. -/

namespace Sys2Proof.Tests

open Sys2Proof.Machine

/-! ## WellFormed: each check refuses something -/

theorem test_wellFormed_register : (AsmLine.add 3 1 16).wellFormed = false := by decide
theorem test_wellFormed_byte : (AsmLine.set 1 256).wellFormed = false := by decide
theorem test_wellFormed_count : (AsmLine.ror 1 8).wellFormed = false := by decide
theorem test_wellFormed_word : (AsmLine.word 65536).wellFormed = false := by decide
theorem test_wellFormed_accepts : (AsmLine.ror 15 7).wellFormed = true ∧ (AsmLine.beq 15 255).wellFormed = true := by decide
theorem test_programFits_129 : programFits (List.replicate 129 0x2101#16) = false := by simp [programFits]
theorem test_programFits_128 : programFits (List.replicate 128 0x2101#16) = true := by simp [programFits]

/-! ## Decode: one word a constructor, written bit by bit -/

theorem test_decode_undef0 : decode 0b0000_0000_0000_0000#16 = .undef0 := by decide
theorem test_decode_load : decode 0b0001_0010_0100_0000#16 = .load 2#4 0x40#8 := by decide
theorem test_decode_set : decode 0b0010_1111_1111_1110#16 = .set 15#4 0xFE#8 := by decide
theorem test_decode_store : decode 0b0011_0001_1000_0001#16 = .store 1#4 0x81#8 := by decide
theorem test_decode_move : decode 0b0100_1111_0001_0011#16 = .move 3#4 1#4 := by decide
theorem test_decode_add : decode 0b0101_0011_0001_0010#16 = .add 3#4 1#4 2#4 := by decide
theorem test_decode_undef6 : decode 0b0110_0001_0010_0011#16 = .undef6 := by decide
theorem test_decode_or : decode 0b0111_0011_0001_0010#16 = .or 3#4 1#4 2#4 := by decide
theorem test_decode_and : decode 0b1000_0100_0001_0010#16 = .and 4#4 1#4 2#4 := by decide
theorem test_decode_xor : decode 0b1001_0101_0001_0010#16 = .xor 5#4 1#4 2#4 := by decide
theorem test_decode_ror : decode 0b1010_0001_1011_1111#16 = .ror 1#4 3#3 := by decide
theorem test_decode_beq : decode 0b1011_0101_0100_0000#16 = .beq 5#4 0x40#8 := by decide
theorem test_decode_halt : decode 0b1100_1111_1111_1111#16 = .halt := by decide
theorem test_decode_undefD : decode 0b1101_1111_1111_1111#16 = .undefD := by decide
theorem test_decode_undefE : decode 0b1110_0000_0000_0000#16 = .undefE := by decide
theorem test_decode_undefF : decode 0b1111_0000_1111_0000#16 = .undefF := by decide

theorem test_decodeBytes_rejects : (decodeBytes []).isOk = false ∧ (decodeBytes [0x12#8]).isOk = false := by decide
theorem test_decodeTableWord : decodeTableWord 16 0x4013 = some (.move 3#4 1#4) := by decide
theorem test_encode_move : encode (.move 3#4 1#4) = 0x4013#16 := by decide
theorem test_table_rows_do_not_overlap :
    opcodeTable.Pairwise (fun a b => a.pattern ≠ b.pattern ∧ a.mask = b.mask) := by decide

/-! ## Assembly -/

theorem test_assemble_load : assemble (.load 2 0x40) = some 0x1240#16 := by decide
theorem test_text_load :
    (AsmLine.load 2 0x40).text .hexadecimal = ['L', 'O', 'A', 'D', ' ', 'r', '2', ',', ' ', '[', '0', 'x', '4', '0', ']'] := by
  decide
theorem test_text_jmp : (AsmLine.jmp 0x0A).text .hexadecimal = ['J', 'M', 'P', ' ', '0', 'x', '0', 'A'] := by decide
theorem test_disassemble_ignored_bits : disassemble 0x4F13#16 = .move 3 1 := by decide

/-! ## One step of each instruction -/

/-- A fresh machine with `pc` at an address, one word there, and some registers set. -/
def machineAt (pc : Addr) (w : Word) (regs : List (Reg × Byte)) : State :=
  placeWord (regs.foldl (fun s rv => writeReg s rv.1 rv.2) (setPc State.reset pc)) pc w

/-- The state after one step of it. -/
def after (pc : Addr) (w : Word) (regs : List (Reg × Byte)) : State := (stepTransaction (machineAt pc w regs)).1

-- V-L3: a load from the first byte of its own word.
theorem test_load_own_word : readReg (after 0x00#8 0x1F00#16 []) 15#4 = 0x1F#8 := by decide
-- V-S2.
theorem test_set_top_register : readReg (after 0x00#8 0x2FFF#16 []) 15#4 = 0xFF#8 := by decide
-- V-ST1, V-ST3: a store, and a store over its own word.
theorem test_store : memRead (after 0x00#8 0x3140#16 [(1#4, 0x20#8)]) 0x40#8 = 0x20#8 := by decide
theorem test_store_over_itself :
    (memRead (after 0x02#8 0x3302#16 [(3#4, 0x77#8)]) 0x02#8, (after 0x02#8 0x3302#16 [(3#4, 0x77#8)]).ir) =
      (0x77#8, 0x3302#16) := by decide
-- V-M2: the source is the higher nibble.
theorem test_move_field_order :
    readReg (after 0x00#8 0x4031#16 [(1#4, 0x10#8), (3#4, 0x55#8)]) 1#4 = 0x55#8 := by decide
-- V-A6, V-A7.
theorem test_add_wraps : readReg (after 0x00#8 0x5312#16 [(1#4, 0x30#8), (2#4, 0xFA#8)]) 3#4 = 0x2A#8 := by decide
theorem test_add_same_register : readReg (after 0x00#8 0x5111#16 [(1#4, 0x81#8)]) 1#4 = 0x02#8 := by decide
-- V-B5.
theorem test_or : readReg (after 0x00#8 0x7312#16 [(1#4, 0x5C#8), (2#4, 0x3A#8)]) 3#4 = 0x7E#8 := by decide
theorem test_and : readReg (after 0x00#8 0x8312#16 [(1#4, 0x5C#8), (2#4, 0x3A#8)]) 3#4 = 0x18#8 := by decide
theorem test_xor : readReg (after 0x00#8 0x9312#16 [(1#4, 0x5C#8), (2#4, 0x3A#8)]) 3#4 = 0x66#8 := by decide
-- V-R7, V-R13.
theorem test_ror_by_3 : readReg (after 0x00#8 0xA130#16 [(1#4, 0x96#8)]) 1#4 = 0xD2#8 := by decide
theorem test_ror_field_8_is_0 : readReg (after 0x00#8 0xA180#16 [(1#4, 0x0C#8)]) 1#4 = 0x0C#8 := by decide
-- V-BEQ1, V-BEQ6.
theorem test_beq_taken : (after 0x10#8 0xB540#16 [(5#4, 7#8), (0#4, 7#8)]).pc = 0x40#8 := by decide
theorem test_beq_not_taken_wraps : (after 0xFE#8 0xB120#16 [(1#4, 1#8)]).pc = 0x00#8 := by decide
-- V-H3, and V-F3: a fetch at 255 takes its second byte from address 0.
theorem test_halt_at_the_top :
    ((after 0xFE#8 0xC000#16 []).runState, (after 0xFE#8 0xC000#16 []).pc) = (.halted, 0x00#8) := by decide
theorem test_halt_fetch_wraps :
    ((after 0xFF#8 0xC021#16 []).ir, (after 0xFF#8 0xC021#16 []).pc) = (0xC021#16, 0x01#8) := by decide
-- V-U1 to V-U5.
theorem test_undef0 : (after 0x00#8 0x0000#16 []).runState = .faulted := by decide
theorem test_undef6 :
    ((after 0x00#8 0x6123#16 []).runState, (after 0x00#8 0x6123#16 []).ir, (after 0x00#8 0x6123#16 []).pc) =
      (.faulted, 0x6123#16, 0x02#8) := by decide
theorem test_undefD : (after 0x00#8 0xDFFF#16 []).runState = .faulted := by decide
theorem test_undefE : (after 0x00#8 0xE000#16 []).runState = .faulted := by decide
theorem test_undefF : (after 0x00#8 0xF0F0#16 []).runState = .faulted := by decide

/-! ## The host's operations -/

-- V-H4: a step after HALT is refused.
theorem test_step_refused : (stepTransaction (after 0x00#8 0xC000#16 [])).2 = .refused := by decide
-- V-LD2: the registers are kept, memory and run_state are new.
theorem test_load_keeps_registers :
    (readReg (load (after 0x00#8 0xC000#16 [(3#4, 7#8)]) [0x2110#16, 0xC000#16]).1 3#4,
      (load (after 0x00#8 0xC000#16 [(3#4, 7#8)]) [0x2110#16, 0xC000#16]).1.mem,
      (load (after 0x00#8 0xC000#16 [(3#4, 7#8)]) [0x2110#16, 0xC000#16]).1.runState) =
    (7#8, [(0, 0x21#8), (1, 0x10#8), (2, 0xC0#8)], .running) := by decide
-- V-LD3.
theorem test_load_rejected :
    load (machineAt 0x0A#8 0xC000#16 [(3#4, 7#8)]) (List.replicate 129 0x2101#16) =
      (machineAt 0x0A#8 0xC000#16 [(3#4, 7#8)], .rejected) := by simp [load, programFits]
theorem test_withFetchWord :
    (stepTransaction ((after 0x00#8 0xC000#16 []).withFetchWord 16 0x21FF)).1.ir = 0x21FF#16 := by decide

/-! ## Witnesses: the hypotheses of each statement are met together -/

theorem witness_AssemblerAndDisassemblerAgreeWithDecode :
    (∃ w v : Word, w ≠ v ∧ ¬ isUndefinedOpcode (opcode w) ∧ decode w = decode v) ∧
    (∃ w : Word, isUndefinedOpcode (opcode w)) ∧ ∃ line : AsmLine, line.wellFormed = false :=
  ⟨⟨0xA130#16, 0xA1BF#16, by unfold isUndefinedOpcode; decide⟩, ⟨0xF0F0#16, by unfold isUndefinedOpcode; decide⟩,
    .ror 1 8, by decide⟩

theorem witness_StepRunsTheInstructionAtPc :
    ∃ (s : State) (i : Instr) (hi lo : Byte), s.pc = 0xFF#8 ∧ s.runState = .running ∧ memRead s s.pc = hi ∧
      memRead s (s.pc + 1#8) = lo ∧ decodeBytes [hi, lo] = .ok (i, []) :=
  ⟨machineAt 0xFF#8 0x2110#16 [], .set 1#4 0x10#8, 0x21#8, 0x10#8, by decide, by decide, by decide, by decide, rfl⟩

theorem witness_FetchWritesOnlyIrAndPc : ∃ s : State, s.pc = 255#8 ∧ (fetch s).ir = 0xC021#16 :=
  ⟨machineAt 0xFF#8 0xC021#16 [], by decide, by decide⟩

theorem witness_WordsAreBigEndianInFetchAndLoad :
    (∃ s : State, s.pc = 254#8 ∧ s.pc ≠ 255#8 ∧ (fetch s).ir = 0x2110#16) ∧
    ∃ (words : List Word) (k : Nat) (w : Word), words.length ≤ 128 ∧ words[k]? = some w ∧ k = 127 :=
  ⟨⟨machineAt 0xFE#8 0x2110#16 [], by decide, by decide, by decide⟩,
    List.replicate 128 0x2101#16, 127, 0x2101#16, by simp, by simp, rfl⟩

theorem witness_StepCompletesExactlyWhenRunning :
    (∃ s : State, s.runState = .running) ∧ (∃ s : State, s.runState = .halted) ∧ ∃ s : State, s.runState = .faulted :=
  ⟨⟨State.reset, rfl⟩, ⟨after 0x00#8 0xC000#16 [], by decide⟩, ⟨after 0x00#8 0x0000#16 [], by decide⟩⟩

theorem witness_StepResultDependsOnlyOnTheOpcode :
    (∃ s : State, s.runState = .running ∧
      (opcode (fetch s).ir).toNat ∈ [0x1, 0x2, 0x3, 0x4, 0x5, 0x7, 0x8, 0x9, 0xA, 0xB]) ∧
    ∃ s : State, s.runState = .running ∧ (opcode (fetch s).ir).toNat ∈ [0xC, 0x0, 0x6, 0xD, 0xE, 0xF] :=
  ⟨⟨machineAt 0x00#8 0xB0FF#16 [], by decide, by decide⟩, ⟨machineAt 0x00#8 0xF000#16 [], by decide, by decide⟩⟩

theorem witness_StepWritesOnlyWhatItsInstructionNames :
    (∃ s t : State, step s = .next t ∧ t.runState ≠ s.runState) ∧ ∃ s t : State, step s = .next t ∧ t.x ≠ s.x :=
  ⟨⟨machineAt 0x00#8 0xC000#16 [], after 0x00#8 0xC000#16 [], rfl, by decide⟩,
    machineAt 0x00#8 0x2110#16 [], after 0x00#8 0x2110#16 [], rfl, by decide⟩

theorem witness_PcChangesOnlyByFetchAndTakenBranch :
    (∃ s t : State, step s = .next t ∧ ∃ r target8, decode (fetch s).ir = .beq r target8) ∧
    ∃ s : State, s.runState ≠ .running ∧ s.pc ≠ 0#8 :=
  ⟨⟨machineAt 0x10#8 0xB540#16 [], after 0x10#8 0xB540#16 [], rfl, 5#4, 0x40#8, by decide⟩,
    after 0x10#8 0xC000#16 [], by decide, by decide⟩

theorem witness_IrHoldsTheFetchedWordAndOnlyDecodeReadsIt :
    (∃ s t : State, step s = .next t) ∧ (∃ s : State, s.runState ≠ .running ∧ s.ir ≠ 0#16) ∧
    (∃ words : List Word, words.length ≤ 128) ∧ (∃ s : State, s.runState = .running) ∧
    ∃ (i : Instr) (s t : State), exec i s = .next t :=
  ⟨⟨machineAt 0x00#8 0x2110#16 [], after 0x00#8 0x2110#16 [], rfl⟩, ⟨after 0x10#8 0xC000#16 [], by decide, by decide⟩,
    ⟨[], by decide⟩, ⟨State.reset, rfl⟩, .halt, State.reset, haltHalted State.reset, rfl⟩

theorem witness_RunStateIsWrittenByHaltFaultHaltAndLoadAlone :
    (∃ s t : State, step s = .next t ∧ t.runState = .halted) ∧ (∃ s t : State, step s = .next t ∧ t.runState = .faulted) ∧
    ∃ s : State, s.runState ≠ .running :=
  ⟨⟨machineAt 0x00#8 0xC000#16 [], after 0x00#8 0xC000#16 [], rfl, by decide⟩,
    ⟨machineAt 0x00#8 0xE000#16 [], after 0x00#8 0xE000#16 [], rfl, by decide⟩, after 0x00#8 0xC000#16 [], by decide⟩

theorem witness_EffectDependsOnlyOnWhatTheInstructionReads :
    ∃ (i : Instr) (s s' : State), s.x ≠ s'.x ∧ s.pc = s'.pc ∧ s.runState = s'.runState ∧
      (∀ r ∈ i.regsRead, readReg s r = readReg s' r) ∧ ∀ a ∈ i.memLoaded.toList, memRead s a = memRead s' a :=
  ⟨.add 3#4 1#4 2#4, machineAt 0#8 0x5312#16 [(7#4, 1#8)], machineAt 0#8 0x5312#16 [(7#4, 2#8)],
    by decide, by decide, by decide, by decide, by decide⟩

theorem witness_StoreWritesTheAddressedByteOnly :
    ∃ (i : Instr) (s t : State) (a : Addr), exec i s = .next t ∧ memRead t a ≠ memRead s a :=
  ⟨.store 1#4 0xFF#8, machineAt 0#8 0#16 [(1#4, 9#8)], memWrite (machineAt 0#8 0#16 [(1#4, 9#8)]) 0xFF#8 9#8, 0xFF#8,
    rfl, by decide⟩

theorem witness_StoreIsSeenByTheNextFetch :
    (∃ (s t : State) (src : Reg) (a : Addr), decode (fetch s).ir = .store src a ∧ step s = .next t ∧ t.pc = a) ∧
    ∃ (s t : State) (src : Reg) (a : Addr), decode (fetch s).ir = .store src a ∧ step s = .next t ∧ t.pc + 1#8 = a :=
  ⟨⟨machineAt 0x02#8 0x3304#16 [(3#4, 0xC0#8)], after 0x02#8 0x3304#16 [(3#4, 0xC0#8)], 3#4, 0x04#8, by decide, rfl, by decide⟩,
    machineAt 0xFD#8 0x3300#16 [(3#4, 0xC0#8)], after 0xFD#8 0x3300#16 [(3#4, 0xC0#8)], 3#4, 0x00#8, by decide, rfl, by decide⟩

theorem witness_RotateMovesEveryBitRightAroundTheByte :
    (∃ (n : Count) (i : Nat), i < 8 ∧ n = 7#3 ∧ (i + n.toNat) % 8 ≠ i + n.toNat) ∧ ∃ n : Count, n = 0#3 :=
  ⟨⟨7#3, 7, by decide, rfl, by decide⟩, 0#3, rfl⟩

theorem witness_BranchGoesToTheTargetExactlyWhenEqual :
    (∃ (s : State) (r : Reg), r ≠ 0#4 ∧ readReg s r = readReg s 0#4) ∧
    (∃ (s : State) (r : Reg), readReg s r ≠ readReg s 0#4) ∧
    (∃ (s : State) (r : Reg) (target8 : Byte), s.runState = .running ∧ decode (fetch s).ir = .beq r target8 ∧
      readReg s r = readReg s 0#4 ∧ target8 = 255#8) ∧
    ∃ (s : State) (r : Reg) (target8 : Byte), s.runState = .running ∧ decode (fetch s).ir = .beq r target8 ∧
      readReg s r = readReg s 0#4 ∧ target8 = s.pc :=
  ⟨⟨State.reset, 5#4, by decide, by decide⟩, ⟨machineAt 0#8 0#16 [(5#4, 1#8)], 5#4, by decide⟩,
    ⟨machineAt 0xFE#8 0xB5FF#16 [], 5#4, 0xFF#8, by decide, by decide, by decide, rfl⟩,
    machineAt 0xFF#8 0xB5FF#16 [], 5#4, 0xFF#8, by decide, by decide, by decide, by decide⟩

theorem witness_HaltStopsTheMachineInHalted :
    ∃ s : State, s.runState = .running ∧ opcode (wordAt s s.pc) = 0xC#4 :=
  ⟨machineAt 0xFF#8 0xCFFF#16 [], by decide, by decide⟩

theorem witness_UndefinedOpcodesTakeTheFaultHalt :
    ∀ op ∈ [0x0#4, 0x6#4, 0xD#4, 0xE#4, 0xF#4], ∃ s : State, s.runState = .running ∧ opcode (wordAt s s.pc) = op ∧
      isUndefinedOpcode (opcode (wordAt s s.pc)) := by
  unfold isUndefinedOpcode
  intro op h
  simp only [List.mem_cons, List.not_mem_nil, or_false] at h
  obtain rfl | rfl | rfl | rfl | rfl := h
  · exact ⟨machineAt 0xFF#8 0x0FFF#16 [], by decide, by decide, by decide⟩
  · exact ⟨machineAt 0xFF#8 0x6FFF#16 [], by decide, by decide, by decide⟩
  · exact ⟨machineAt 0xFF#8 0xDFFF#16 [], by decide, by decide, by decide⟩
  · exact ⟨machineAt 0xFF#8 0xEFFF#16 [], by decide, by decide, by decide⟩
  · exact ⟨machineAt 0xFF#8 0xFFFF#16 [], by decide, by decide, by decide⟩

theorem witness_StoppedMachineNeverResumes :
    (∃ s : State, s.runState ≠ .running) ∧ ∃ (n : Nat) (s : State), s.runState = .running ∧ HaltsCleanlyWithin n s :=
  ⟨⟨after 0x00#8 0x0000#16 [], by decide⟩, 2, machineAt 0x00#8 0xC000#16 [], by decide, 1, by decide, by
    unfold EndsCleanly; decide⟩

theorem witness_StepsWithoutBranchAdvancePcByTwoEach : ∃ s t : State, StraightRun 1 s t ∧ s.pc = 0xFF#8 :=
  ⟨machineAt 0xFF#8 0x2110#16 [], after 0xFF#8 0x2110#16 [], .step rfl (by decide) (.refl _), by decide⟩

theorem witness_LoadedProgramStandsAtZeroWithZerosBeyond :
    (∃ (words : List Word) (k : Nat) (w : Word), words.length ≤ 128 ∧ words[k]? = some w ∧ k = 127) ∧
    ∃ (words : List Word) (a : Addr), words.length ≤ 128 ∧ 2 * words.length ≤ a.toNat ∧ a = 254#8 :=
  ⟨⟨List.replicate 128 0x2101#16, 127, 0x2101#16, by simp, by simp, rfl⟩,
    List.replicate 127 0x2101#16, 254#8, by simp, by simp, rfl⟩

theorem witness_AcceptedLoadKeepsRegistersAndSetsRunning : ∃ words : List Word, words.length ≤ 128 ∧ words.length = 128 :=
  ⟨List.replicate 128 0x2101#16, by simp, by simp⟩

theorem witness_LoadIsRejectedWholeWhenTooLong : ∃ words : List Word, 128 < words.length :=
  ⟨List.replicate 129 0x2101#16, by simp⟩

theorem witness_FirstStepAfterLoadExecutesWordZero : ∃ rest : List Word, rest.length < 128 ∧ rest.length = 127 :=
  ⟨List.replicate 127 0x2101#16, by simp, by simp⟩

theorem witness_SnapshotAndStatusShowTheWholeState :
    ∃ s s' : State, s.mem ≠ [] ∧ s.mem.wf = true ∧ s'.mem.wf = true ∧ snapshot s = snapshot s' ∧ status s = status s' :=
  ⟨machineAt 0x00#8 0x2110#16 [], machineAt 0x00#8 0x2110#16 [], by decide, by decide, by decide, rfl, rfl⟩

theorem witness_StepKeepsTheInvariant :
    ∃ s t : State, StateInv s ∧ step s = .next t ∧ t.runState = .faulted ∧ s.mem ≠ [] :=
  ⟨machineAt 0xFF#8 0x6110#16 [], after 0xFF#8 0x6110#16 [], ⟨by decide, trivial⟩, rfl, by decide, by decide⟩

theorem witness_HostOperationsKeepTheInvariant : ∃ s : State, StateInv s ∧ s.runState = .halted :=
  ⟨after 0xFF#8 0xC110#16 [], ⟨by decide, by
    show opcode (after 0xFF#8 0xC110#16 []).ir = 0xC#4 ∧ _
    decide⟩, by decide⟩

theorem witness_CanonicalMemoriesThatReadAlikeAreEqual :
    ∃ m m' : Memory, m ≠ [] ∧ m.wf = true ∧ m'.wf = true ∧ ∀ a, a < 256 → m.read a = m'.read a :=
  ⟨[(255, 1#8)], [(255, 1#8)], by decide, by decide, by decide, fun _ _ => rfl⟩

end Sys2Proof.Tests
end

section
/-! ## What a program load leaves in `pc` and `ir` (R181, R182) -/

namespace Sys2Proof.Machine

variable {s : State} {words : List Word}

theorem load_of_le (h : words.length ≤ 128) : load s words = (loadedState s words, .accepted) := by
  simp [load, programFits, h]

theorem load_of_not_le (h : ¬ words.length ≤ 128) : load s words = (s, .rejected) := by
  simp [load, programFits, h]

@[simp] theorem loadedState_pc (s : State) (words : List Word) : (loadedState s words).pc = 0#8 := by
  simp [loadedState]

@[simp] theorem loadedState_ir (s : State) (words : List Word) : (loadedState s words).ir = 0#16 := by
  simp [loadedState]

end Sys2Proof.Machine
end

section
/-! ## The two outcomes of BRANCH-IF-EQUAL (R140) -/

namespace Sys2Proof.Machine

variable {s : State} {r : Reg} (target8 : Byte)

theorem exec_beq_of_eq (h : readReg s r = readReg s 0#4) : exec (.beq r target8) s = .next (setPc s target8) := by
  simp [exec, execBeq, (equalsRegZero_iff s r).2 h]

theorem exec_beq_of_ne (h : readReg s r ≠ readReg s 0#4) : exec (.beq r target8) s = .next s := by
  simp [exec, execBeq, mt (equalsRegZero_iff s r).1 h]

end Sys2Proof.Machine
end

section
/-! ## `pc` (R25) -/

namespace Sys2Proof.Machine

variable {i : Instr} {s t : State}

theorem exec_beq_pc {r : Reg} {target8 : Byte} (h : exec (.beq r target8) s = .next t) :
    t.pc = if readReg s r = readReg s 0#4 then target8 else s.pc := by
  by_cases heq : readReg s r = readReg s 0#4
  · rw [exec_beq_of_eq target8 heq] at h
    cases h
    simp [heq]
  · rw [exec_beq_of_ne target8 heq] at h
    cases h
    simp [heq]

/-- Of the six shapes of a next state, only the taken branch has another `pc`. -/
theorem exec_pc_of_ne_beq (h : exec i s = .next t) (hi : ∀ r target8, i ≠ .beq r target8) : t.pc = s.pc := by
  obtain ⟨r, v, -, rfl⟩ | ⟨src, a, -, rfl⟩ | ⟨r, a, hb, -, -⟩ | ⟨r, a, -, -, rfl⟩ | ⟨-, rfl⟩ | ⟨-, rfl⟩ := exec_cases h
  · exact writeReg_pc s r v
  · exact memWrite_pc s _ _
  · exact absurd hb (hi r a)
  · rfl
  · exact haltHalted_pc s
  · exact raiseFaultHalt_pc s

theorem fetch_pc_toNat (s : State) : (fetch s).pc.toNat = (s.pc.toNat + 2) % 256 := by
  simp [BitVec.toNat_add]

theorem load_pc (s : State) (words : List Word) :
    (load s words).1.pc = if words.length ≤ 128 then 0#8 else s.pc := by
  by_cases h : words.length ≤ 128
  · simp [load_of_le h, h]
  · simp [load_of_not_le h, h]

/-- Settles O15: of the execute stage only a taken branch writes `pc`, so every other step leaves fetch's value. -/
theorem pcChangesOnlyByFetchAndTakenBranch : Obligations.PcChangesOnlyByFetchAndTakenBranch := by
  unfold Obligations.PcChangesOnlyByFetchAndTakenBranch
  refine ⟨fun s => ⟨fetch_ir s, fetch_pc_toNat s⟩, fun s t h => ?_, fun s h => ?_, rfl, load_pc⟩
  · have hexec : exec (decode (fetch s).ir) (fetch s) = .next t := (step_cases h).2
    split
    next r target8 hbeq =>
      rw [hbeq] at hexec
      exact exec_beq_pc hexec
    next hne => exact exec_pc_of_ne_beq hexec hne
  · rw [stepTransaction_stopped h]

end Sys2Proof.Machine
end

section
/-! ## `ir` (R27) -/

namespace Sys2Proof.Machine

variable {i : Instr} {s t : State}

/-- The execute stage never writes `ir`: none of the six shapes of a next state does. -/
theorem exec_ir (h : exec i s = .next t) : t.ir = s.ir := by
  obtain ⟨r, v, -, rfl⟩ | ⟨src, a, -, rfl⟩ | ⟨r, a, -, -, rfl⟩ | ⟨r, a, -, -, rfl⟩ | ⟨-, rfl⟩ | ⟨-, rfl⟩ := exec_cases h
  · exact writeReg_ir s r v
  · exact memWrite_ir s _ _
  · exact setPc_ir s _
  · rfl
  · exact haltHalted_ir s
  · exact raiseFaultHalt_ir s

/-- The execute stage does not read `ir`: it answers the same next state whatever `ir` holds, and carries it along. Only
BRANCH-IF-EQUAL chooses between two states, and it chooses by registers. -/
theorem exec_withIr (h : exec i s = .next t) (w : Word) : exec i { s with ir := w } = .next { t with ir := w } := by
  cases i with
  | beq r target8 =>
    by_cases heq : readReg s r = readReg s 0#4
    · rw [exec_beq_of_eq target8 heq] at h
      cases h
      exact exec_beq_of_eq (s := { s with ir := w }) target8 heq
    · rw [exec_beq_of_ne target8 heq] at h
      cases h
      exact exec_beq_of_ne (s := { s with ir := w }) target8 heq
  | _ => cases h; rfl

/-- Fetch overwrites `ir` without reading it. -/
theorem fetch_withIr (s : State) (w : Word) : fetch { s with ir := w } = fetch s := rfl

theorem step_withIr (h : s.runState = .running) (w : Word) : step { s with ir := w } = step s := by
  have hw : step { s with ir := w } = exec (decode (wordAt s s.pc)) (fetch { s with ir := w }) := step_running h
  rw [hw, fetch_withIr, step_running h]

theorem step_ir (h : step s = .next t) : t.ir = wordAt s s.pc :=
  (exec_ir (step_cases h).2).trans (fetch_ir s)

/-- Settles O16: fetch writes `ir` without reading it, and the execute stage neither reads nor writes it. -/
theorem irHoldsTheFetchedWordAndOnlyDecodeReadsIt : Obligations.IrHoldsTheFetchedWordAndOnlyDecodeReadsIt := by
  unfold Obligations.IrHoldsTheFetchedWordAndOnlyDecodeReadsIt
  refine ⟨fun s t h => step_ir h, fun s h => ?_, rfl, fun s words h => ?_, fun s => rfl,
    fun s w h => step_withIr h w, fun i s t w h => exec_withIr h w⟩
  · rw [stepTransaction_stopped h]
  · rw [load_of_le h, loadedState_ir]

end Sys2Proof.Machine
end

section
/-! ## The two bytes of a word as numbers (R61) -/

namespace Sys2Proof

theorem highByte_toNat (w : Word) : (highByte w).toNat = w.toNat / 256 := by
  have hw : w.toNat < 65536 := w.isLt
  rw [highByte, BitVec.extractLsb'_toNat, Nat.shiftRight_eq_div_pow]
  omega

theorem lowByte_toNat (w : Word) : (lowByte w).toNat = w.toNat % 256 := by
  rw [lowByte, BitVec.extractLsb'_toNat, Nat.shiftRight_zero]

end Sys2Proof
end

section
/-! ## The bytes of a placed program (R43, R182): word `k` at the start address plus `2k`, nothing else written -/

namespace Sys2Proof.Machine

variable {words rest : List Word} {k : Nat} {s : State} {a b : Addr} {w : Word}

theorem toNat_add_two_of_lt (h : a.toNat + 2 < 256) : (a + 2#8).toNat = a.toNat + 2 := BitVec.toNat_add_of_lt h

/-- Placing the rest of a program does not disturb its first word. -/
theorem memRead_placeWords_cons_of_lt (hlen : a.toNat + 2 * (w :: rest).length ≤ 256) (hb : b.toNat < a.toNat + 2) :
    memRead (placeWords s a (w :: rest)) b = memRead (placeWord s a w) b := by
  rw [List.length_cons] at hlen
  rw [placeWords]
  cases rest with
  | nil => rfl
  | cons w' rest =>
    rw [List.length_cons] at hlen
    have ha : (a + 2#8).toNat = a.toNat + 2 := toNat_add_two_of_lt (by omega)
    exact memRead_placeWords_below _ _ _ _ (by omega) (by rw [List.length_cons]; omega)

/-- A byte above the program is as before. -/
theorem memRead_placeWords_above (hb : a.toNat + 2 * words.length ≤ b.toNat) :
    memRead (placeWords s a words) b = memRead s b := by
  induction words generalizing s a with
  | nil => rfl
  | cons w rest ih =>
    rw [List.length_cons] at hb
    have ha : (a + 2#8).toNat = a.toNat + 2 := toNat_add_two_of_lt (by omega)
    have hhigh : b ≠ a := by bv_omega
    have hlow : b ≠ a + 1#8 := by bv_omega
    rw [placeWords, ih (by omega), memRead_placeWord, if_neg hlow, if_neg hhigh]

/-- The byte at offset `2k` is the high byte of word `k`. -/
theorem memRead_placeWords_high (hw : words[k]? = some w) (hlen : a.toNat + 2 * words.length ≤ 256)
    (hb : b.toNat = a.toNat + 2 * k) : memRead (placeWords s a words) b = highByte w := by
  induction words generalizing s a k with
  | nil => cases hw
  | cons w' rest ih =>
    cases k with
    | zero =>
      obtain rfl : w' = w := by simpa using hw
      obtain rfl : b = a := BitVec.eq_of_toNat_eq hb
      have hne : b ≠ b + 1#8 := by bv_omega
      rw [memRead_placeWords_cons_of_lt hlen (by omega), memRead_placeWord, if_neg hne, if_pos rfl]
    | succ k =>
      rw [List.length_cons] at hlen
      have ha : (a + 2#8).toNat = a.toNat + 2 := toNat_add_two_of_lt (by omega)
      exact ih hw (by omega) (by omega)

/-- The byte at offset `2k + 1` is the low byte of word `k`. -/
theorem memRead_placeWords_low (hw : words[k]? = some w) (hlen : a.toNat + 2 * words.length ≤ 256)
    (hb : b.toNat = a.toNat + 2 * k + 1) : memRead (placeWords s a words) b = lowByte w := by
  induction words generalizing s a k with
  | nil => cases hw
  | cons w' rest ih =>
    cases k with
    | zero =>
      obtain rfl : w' = w := by simpa using hw
      obtain rfl : b = a + 1#8 := by bv_omega
      rw [memRead_placeWords_cons_of_lt hlen (by omega), memRead_placeWord, if_pos rfl]
    | succ k =>
      rw [List.length_cons] at hlen
      have ha : (a + 2#8).toNat = a.toNat + 2 := toNat_add_two_of_lt (by omega)
      exact ih hw (by omega) (by omega)

end Sys2Proof.Machine
end

section
/-! ## Memory after a program load (R43, R49) -/

namespace Sys2Proof.Machine

variable {s : State} {words : List Word} {k : Nat} {w : Word}

theorem memRead_load_high (hlen : words.length ≤ 128) (hw : words[k]? = some w) :
    memRead (load s words).1 (BitVec.ofNat 8 (2 * k)) = highByte w := by
  have hk : k < words.length := (List.getElem?_eq_some_iff.1 hw).1
  rw [load_of_le hlen]
  exact memRead_placeWords_high hw (by simp; omega) (by simp; omega)

theorem memRead_load_low (hlen : words.length ≤ 128) (hw : words[k]? = some w) :
    memRead (load s words).1 (BitVec.ofNat 8 (2 * k + 1)) = lowByte w := by
  have hk : k < words.length := (List.getElem?_eq_some_iff.1 hw).1
  rw [load_of_le hlen]
  exact memRead_placeWords_low hw (by simp; omega) (by simp; omega)

/-- Beyond the program the load leaves the memory it cleared. -/
theorem memRead_load_beyond (hlen : words.length ≤ 128) {a : Addr} (ha : 2 * words.length ≤ a.toNat) :
    memRead (load s words).1 a = 0#8 := by
  rw [load_of_le hlen, loadedState, memRead_placeWords_above (by simpa using ha)]
  rfl

/-- Settles O11: fetch joins the byte at `pc`, as the high one, with the next; a load places every word high byte first. -/
theorem wordsAreBigEndianInFetchAndLoad : Obligations.WordsAreBigEndianInFetchAndLoad := by
  unfold Obligations.WordsAreBigEndianInFetchAndLoad
  refine ⟨fun s _ => ⟨?_, ?_⟩, fun s words k w hlen hw => ⟨memRead_load_high hlen hw, memRead_load_low hlen hw⟩⟩
  · rw [fetch_ir, wordAt, highByte_wordOfBytes]
  · have hnext : BitVec.ofNat 8 (s.pc.toNat + 1) = s.pc + 1#8 := by simp [BitVec.ofNat_add]
    rw [fetch_ir, wordAt, lowByte_wordOfBytes, hnext]

/-- Settles O34: the load clears memory and then writes the program's bytes and no other. -/
theorem loadedProgramStandsAtZeroWithZerosBeyond : Obligations.LoadedProgramStandsAtZeroWithZerosBeyond := by
  unfold Obligations.LoadedProgramStandsAtZeroWithZerosBeyond
  intro s words hlen
  refine ⟨by rw [load_of_le hlen, loadedState_pc], fun k w hw => ⟨?_, ?_⟩, fun a ha => memRead_load_beyond hlen ha,
    memRead_memWrite_self⟩
  · rw [memRead_load_high hlen hw, highByte_toNat]
  · rw [memRead_load_low hlen hw, lowByte_toNat]

end Sys2Proof.Machine
end

section
/-! ## The nibbles of a byte and of a word as numbers (R61) -/

namespace Sys2Proof

theorem lowNibble_toNat (y : Byte) : (lowNibble y).toNat = y.toNat % 16 := by
  rw [lowNibble, BitVec.extractLsb'_toNat, Nat.shiftRight_zero]

theorem highNibble_toNat (y : Byte) : (highNibble y).toNat = y.toNat / 16 := by
  have hy : y.toNat < 256 := y.isLt
  rw [highNibble, BitVec.extractLsb'_toNat, Nat.shiftRight_eq_div_pow]
  omega

theorem opcode_toNat (w : Word) : (opcode w).toNat = w.toNat / 4096 := by
  rw [opcode, highNibble_toNat, highByte_toNat, Nat.div_div_eq_div_mul]

theorem fieldA_toNat (w : Word) : (fieldA w).toNat = w.toNat / 256 % 16 := by
  rw [fieldA, lowNibble_toNat, highByte_toNat]

theorem fieldB_toNat (w : Word) : (fieldB w).toNat = w.toNat / 16 % 16 := by
  rw [fieldB, highNibble_toNat, lowByte_toNat]
  omega

theorem fieldC_toNat (w : Word) : (fieldC w).toNat = w.toNat % 16 := by
  rw [fieldC, lowNibble_toNat, lowByte_toNat]
  omega

/-- Settles O1: each byte or nibble is a division and a remainder by the place values of its lowest and highest bits. -/
theorem fieldPrimitivesAreTheNamedBits : Obligations.FieldPrimitivesAreTheNamedBits := by
  unfold Obligations.FieldPrimitivesAreTheNamedBits
  exact ⟨fun w => ⟨highByte_toNat w, lowByte_toNat w, fieldA_toNat w, fieldB_toNat w, fieldC_toNat w⟩,
    fun y => ⟨lowNibble_toNat y, highNibble_toNat y⟩⟩

end Sys2Proof
end

section
/-! ## The opcode table: a row matches by the opcode alone (R62, R66) -/

namespace Sys2Proof

@[simp] theorem opcode_formatN (op : BitVec 4) : opcode (formatN op) = op := by
  rw [formatN_eq, opcode_formatRRR]

theorem getLsbD_formatN (op : BitVec 4) (i : Nat) :
    (formatN op).getLsbD i = if i < 12 then false else op.getLsbD (i - 12) := by
  rw [formatN, BitVec.getLsbD_append, BitVec.getLsbD_zero]

/-- The mask `0xF000` keeps a word's opcode and clears the rest. -/
theorem and_opcodeMask (w : Word) : w &&& 0xF000#16 = formatN (opcode w) := by
  have hmask : 0xF000#16 = formatN (BitVec.allOnes 4) := rfl
  apply BitVec.eq_of_getLsbD_eq
  intro i hi
  rw [BitVec.getLsbD_and, hmask, getLsbD_formatN, getLsbD_formatN]
  by_cases hlow : i < 12
  · simp [hlow]
  · have hbit : 12 + (i - 12) = i := by omega
    rw [if_neg hlow, if_neg hlow, BitVec.getLsbD_allOnes, getLsbD_opcode, hbit, Bool.and_comm]

/-- Every row of the table is drawn alike: its mask is the opcode's four bits, and its pattern is 0 elsewhere. -/
theorem mask_and_pattern_of_mem_opcodeTable :
    ∀ row ∈ opcodeTable, row.mask = 0xF000#16 ∧ row.pattern = formatN (opcode row.pattern) := by decide

/-- A row matches exactly the words that carry its pattern's opcode. -/
theorem matches_iff_of_mem_opcodeTable {row : OpcodeRow} (hrow : row ∈ opcodeTable) (w : Word) :
    row.matches w = true ↔ opcode row.pattern = opcode w := by
  obtain ⟨hmask, hpattern⟩ := mask_and_pattern_of_mem_opcodeTable row hrow
  rw [OpcodeRow.matches, beq_iff_eq, hmask, and_opcodeMask]
  constructor
  · intro h
    rw [← h, opcode_formatN]
  · intro h
    rw [hpattern, h]

/-- An instruction's opcode is that of one row of the table, its own. -/
theorem rows_with_opcode (i : Instr) :
    (opcodeTable.filter (fun row => opcode row.pattern == i.opcode)).map OpcodeRow.mnemonic = [i.mnemonic] := by
  cases i <;> rfl

/-- The one row a word matches is the row of the instruction it decodes to. -/
theorem rows_matching_word (w : Word) :
    (opcodeTable.filter (fun row => row.matches w)).map OpcodeRow.mnemonic = [(decode w).mnemonic] := by
  have hopcode : ∀ row ∈ opcodeTable, row.matches w = (opcode row.pattern == (decode w).opcode) := fun row hrow => by
    rw [Bool.eq_iff_iff, matches_iff_of_mem_opcodeTable hrow, beq_iff_eq, decode_opcode]
  rw [List.filter_congr hopcode, rows_with_opcode]

/-- Settles O2: a row matches by the opcode alone, decode keeps the opcode, and the sixteen instructions have the sixteen
rows' opcodes. A register field has four bits, so every register is one of the sixteen. -/
theorem everyWordDecodesToItsOneTableRow : Obligations.EveryWordDecodesToItsOneTableRow := by
  unfold Obligations.EveryWordDecodesToItsOneTableRow
  intro w
  refine ⟨rows_matching_word w, ?_, fun r _ => r.isLt⟩
  rw [decode_opcode, opcode_toNat]

end Sys2Proof
end

section
/-! ## The run state after an instruction, by its opcode (R29, R85) -/

namespace Sys2Proof

variable {i : Instr}

theorem runStateAfter_eq_running_iff :
    i.runStateAfter = .running ↔ i.opcode.toNat ∈ [0x1, 0x2, 0x3, 0x4, 0x5, 0x7, 0x8, 0x9, 0xA, 0xB] := by
  cases i <;> simp [Instr.runStateAfter, Instr.opcode]

theorem runStateAfter_ne_running_iff :
    i.runStateAfter ≠ .running ↔ i.opcode.toNat ∈ [0xC, 0x0, 0x6, 0xD, 0xE, 0xF] := by
  cases i <;> simp [Instr.runStateAfter, Instr.opcode]

/-- An instruction that writes a register does not stop the machine. -/
theorem runStateAfter_of_regWritten {r : Reg} (h : i.regWritten = some r) : i.runStateAfter = .running := by
  cases i with
  | undef0 | undef6 | halt | undefD | undefE | undefF => cases h
  | _ => rfl

end Sys2Proof
end

section
/-! ## Every instruction completes and leaves its run state; the step result (R30, R85, R162) -/

namespace Sys2Proof.Machine

variable {s t : State}

/-- No instruction faults or is refused. -/
theorem exec_completes (i : Instr) (s : State) : ∃ t, exec i s = .next t := by
  cases i with
  | beq r target8 =>
    by_cases heq : readReg s r = readReg s 0#4
    · exact ⟨_, exec_beq_of_eq target8 heq⟩
    · exact ⟨_, exec_beq_of_ne target8 heq⟩
  | _ => exact ⟨_, rfl⟩

/-- Of the six shapes of a next state, only the two halts write `run_state`. -/
theorem exec_runState {i : Instr} (h : exec i s = .next t) (hr : s.runState = .running) :
    t.runState = i.runStateAfter := by
  obtain ⟨r, v, hi, rfl⟩ | ⟨src, a, rfl, rfl⟩ | ⟨r, a, rfl, -, rfl⟩ | ⟨r, a, rfl, -, rfl⟩ | ⟨rfl, rfl⟩ | ⟨hi, rfl⟩ :=
    exec_cases h
  · rw [runStateAfter_of_regWritten hi, writeReg_runState, hr]
  · exact hr
  · exact hr
  · exact hr
  · exact haltHalted_runState s
  · rw [hi, raiseFaultHalt_runState]

/-- The step result is read off the run state that the fetched instruction leaves. -/
theorem stepTransaction_result (hr : s.runState = .running) :
    (stepTransaction s).2 = if (decode (fetch s).ir).runStateAfter = .running then .continues else .halt := by
  obtain ⟨t, ht⟩ := exec_completes (decode (fetch s).ir) (fetch s)
  have hstep : step s = .next t := (step_running hr).trans ht
  rw [stepTransaction_next hstep, exec_runState ht hr]

/-- Settles O13: decode keeps the opcode, and the opcode alone says whether the instruction leaves the machine RUNNING, a
branch taken or not. -/
theorem stepResultDependsOnlyOnTheOpcode : Obligations.StepResultDependsOnlyOnTheOpcode := by
  unfold Obligations.StepResultDependsOnlyOnTheOpcode
  intro s hr
  rw [stepTransaction_result hr, ← decode_opcode]
  exact ⟨fun h => if_pos (runStateAfter_eq_running_iff.2 h), fun h => if_neg (runStateAfter_ne_running_iff.2 h)⟩

end Sys2Proof.Machine
end

section
/-! ## The words of format RM that LOAD, SET and STORE decode from (R63, R66) -/

namespace Sys2Proof

variable (r : Reg) (byte : Byte)

@[simp] theorem decode_formatRM_load : decode (formatRM 0x1#4 r byte) = .load r byte := by
  rw [decode_of_opcode_load (opcode_formatRM _ r byte), fieldA_formatRM, lowByte_formatRM]

@[simp] theorem decode_formatRM_set : decode (formatRM 0x2#4 r byte) = .set r byte := by
  rw [decode_of_opcode_set (opcode_formatRM _ r byte), fieldA_formatRM, lowByte_formatRM]

@[simp] theorem decode_formatRM_store : decode (formatRM 0x3#4 r byte) = .store r byte := by
  rw [decode_of_opcode_store (opcode_formatRM _ r byte), fieldA_formatRM, lowByte_formatRM]

end Sys2Proof
end

section
/-! ## The frames of a register write and of a byte store, and the two bytes of a word in memory (R43) -/

namespace Sys2Proof.Machine

variable (s : State) (a : Addr) (v : Byte)

theorem onlyRegWritten_writeReg (d : Reg) : OnlyRegWritten s (writeReg s d v) d := by
  refine ⟨fun r hr => ?_, fun b _ => memRead_writeReg s d b v, writeReg_pc s d v, writeReg_ir s d v,
    writeReg_runState s d v⟩
  have hne : r ≠ d := by simpa using hr
  rw [readReg_writeReg, if_neg hne]

theorem onlyByteStored_memWrite : OnlyByteStored s (memWrite s a v) a := by
  refine ⟨fun r _ => readReg_memWrite s r a v, fun b hb => ?_, memWrite_pc s a v, memWrite_ir s a v,
    memWrite_runState s a v⟩
  have hne : b ≠ a := by simpa using hb
  rw [memRead_memWrite, if_neg hne]

@[simp] theorem highByte_wordAt : highByte (wordAt s a) = memRead s a := highByte_wordOfBytes _ _

@[simp] theorem lowByte_wordAt : lowByte (wordAt s a) = memRead s (a + 1#8) := lowByte_wordOfBytes _ _

end Sys2Proof.Machine
end

section
/-! ## LOAD, SET and STORE (R100, R101, R102) -/

namespace Sys2Proof.Machine

variable (s : State) (r : Reg) (byte : Byte)

theorem exec_load : exec (.load r byte) s = .next (writeReg s r (memRead s byte)) := rfl

theorem exec_set : exec (.set r byte) s = .next (writeReg s r byte) := rfl

theorem exec_store : exec (.store r byte) s = .next (memWrite s byte (readReg s r)) := rfl

/-- Of the six shapes of a next state, only the store has another memory, and it differs at the stored address alone. -/
theorem exec_store_of_memRead_ne {i : Instr} {s t : State} {a : Addr} (h : exec i s = .next t)
    (hne : memRead t a ≠ memRead s a) : ∃ src, i = .store src a := by
  obtain ⟨r, v, -, rfl⟩ | ⟨src, b, rfl, rfl⟩ | ⟨r, b, -, -, rfl⟩ | ⟨r, b, -, -, rfl⟩ | ⟨-, rfl⟩ | ⟨-, rfl⟩ := exec_cases h
  · exact absurd (memRead_writeReg s r a v) hne
  · by_cases hab : a = b
    · exact ⟨src, by rw [hab]⟩
    · exact absurd (by rw [memRead_memWrite, absAddr_eq, if_neg hab]) hne
  · exact absurd (memRead_setPc s _ a) hne
  · exact absurd rfl hne
  · exact absurd (memRead_haltHalted s a) hne
  · exact absurd (memRead_raiseFaultHalt s a) hne

/-- Settles O21: the next state is the memory write, whose frame and whose reads are the laws of memory. -/
theorem storeWritesTheAddressedByteOnly : Obligations.StoreWritesTheAddressedByteOnly := by
  unfold Obligations.StoreWritesTheAddressedByteOnly
  refine ⟨fun src addr8 => ⟨decode_formatRM_store src addr8, fun s => ⟨_, exec_store s src addr8, ?_, absAddr_eq addr8,
    onlyByteStored_memWrite s addr8 _, ?_, ?_⟩⟩, fun i s t a h hne => exec_store_of_memRead_ne h hne⟩
  · exact memRead_memWrite_self s addr8 _
  · rw [highByte_wordAt, memRead_memWrite_self]
  · rw [lowByte_wordAt, BitVec.sub_add_cancel, memRead_memWrite_self]

/-- Settles O19: the next state is the register write of the addressed byte. -/
theorem loadCopiesTheAddressedByteToItsRegister : Obligations.LoadCopiesTheAddressedByteToItsRegister := by
  unfold Obligations.LoadCopiesTheAddressedByteToItsRegister
  refine fun d addr8 => ⟨decode_formatRM_load d addr8, fun s => ⟨(highByte_wordAt s addr8).symm, _, exec_load s d addr8,
    ?_, absAddr_eq addr8, onlyRegWritten_writeReg s _ d⟩⟩
  rw [readReg_writeReg_self, absAddr_eq]

/-- Settles O20: the next state is the register write of the immediate. -/
theorem setWritesTheImmediateUnchanged : Obligations.SetWritesTheImmediateUnchanged := by
  unfold Obligations.SetWritesTheImmediateUnchanged
  exact fun d imm8 => ⟨decode_formatRM_set d imm8, fun s => ⟨_, exec_set s d imm8, readReg_writeReg_self s d imm8,
    onlyRegWritten_writeReg s imm8 d⟩⟩

end Sys2Proof.Machine
end

section
/-! ## The words of format RRR that ADD, OR, AND and XOR decode from (R63, R66) -/

namespace Sys2Proof

variable (d a b : Reg)

@[simp] theorem decode_formatRRR_add : decode (formatRRR 0x5#4 d a b) = .add d a b := by
  rw [decode_of_opcode_add (opcode_formatRRR _ d a b), fieldA_formatRRR, fieldB_formatRRR, fieldC_formatRRR]

@[simp] theorem decode_formatRRR_or : decode (formatRRR 0x7#4 d a b) = .or d a b := by
  rw [decode_of_opcode_or (opcode_formatRRR _ d a b), fieldA_formatRRR, fieldB_formatRRR, fieldC_formatRRR]

@[simp] theorem decode_formatRRR_and : decode (formatRRR 0x8#4 d a b) = .and d a b := by
  rw [decode_of_opcode_and (opcode_formatRRR _ d a b), fieldA_formatRRR, fieldB_formatRRR, fieldC_formatRRR]

@[simp] theorem decode_formatRRR_xor : decode (formatRRR 0x9#4 d a b) = .xor d a b := by
  rw [decode_of_opcode_xor (opcode_formatRRR _ d a b), fieldA_formatRRR, fieldB_formatRRR, fieldC_formatRRR]

end Sys2Proof
end

section
/-! ## ADD, OR, AND and XOR (R121 to R124): one register-to-register operation each -/

namespace Sys2Proof.Machine

variable (f : Byte → Byte → Byte) (d a b : Reg) (s : State)

/-- The destination gets the operation on the old source values, also where it is a source itself. -/
theorem readReg_aluRRR_self : readReg (aluRRR f d a b s) d = f (readReg s a) (readReg s b) := by
  rw [aluRRR, readReg_writeReg_self, regOperand_eq, regOperand_eq]

theorem onlyRegWritten_aluRRR : OnlyRegWritten s (aluRRR f d a b s) d := onlyRegWritten_writeReg s _ d

theorem exec_add : exec (.add d a b) s = .next (aluRRR add8 d a b s) := rfl

theorem exec_or : exec (.or d a b) s = .next (aluRRR (· ||| ·) d a b s) := rfl

theorem exec_and : exec (.and d a b) s = .next (aluRRR (· &&& ·) d a b s) := rfl

theorem exec_xor : exec (.xor d a b) s = .next (aluRRR (· ^^^ ·) d a b s) := rfl

/-- Nine bits hold the sum of two bytes, so the one reduction is the truncation to eight. -/
theorem add8_toNat (x y : Byte) : (add8 x y).toNat = (x.toNat + y.toNat) % 256 := by
  have hx : x.toNat < 256 := x.isLt
  have hy : y.toNat < 256 := y.isLt
  rw [add8, BitVec.toNat_setWidth, BitVec.toNat_add, BitVec.toNat_setWidth, BitVec.toNat_setWidth]
  omega

/-- Settles O24: the next state is the register write of `add8`, the 9-bit sum truncated. -/
theorem addIsTheSumModulo256 : Obligations.AddIsTheSumModulo256 := by
  unfold Obligations.AddIsTheSumModulo256
  refine fun d a b => ⟨decode_formatRRR_add d a b, fun s => ⟨_, exec_add d a b s, ?_, ?_,
    onlyRegWritten_aluRRR add8 d a b s⟩⟩
  · rw [readReg_aluRRR_self, add8]
  · rw [readReg_aluRRR_self, add8_toNat]

/-- Settles O25: the next state is the register write of the bitwise operation, which acts on each bit alone. -/
theorem orAndXorAreBitwise : Obligations.OrAndXorAreBitwise := by
  unfold Obligations.OrAndXorAreBitwise
  refine ⟨fun d a b => ⟨decode_formatRRR_or d a b, fun s => ⟨_, exec_or d a b s, fun i => ?_, onlyRegWritten_aluRRR _ d a b s⟩⟩,
    fun d a b => ⟨decode_formatRRR_and d a b, fun s => ⟨_, exec_and d a b s, fun i => ?_, onlyRegWritten_aluRRR _ d a b s⟩⟩,
    fun d a b => ⟨decode_formatRRR_xor d a b, fun s => ⟨_, exec_xor d a b s, fun i => ?_, onlyRegWritten_aluRRR _ d a b s⟩⟩⟩
  · rw [readReg_aluRRR_self, BitVec.getLsbD_or]
  · rw [readReg_aluRRR_self, BitVec.getLsbD_and]
  · rw [readReg_aluRRR_self, BitVec.getLsbD_xor]

end Sys2Proof.Machine
end

section
/-! ## The word of BRANCH-IF-EQUAL (R63, R66) -/

namespace Sys2Proof

@[simp] theorem decode_formatRM_beq (r : Reg) (byte : Byte) : decode (formatRM 0xB#4 r byte) = .beq r byte := by
  rw [decode_of_opcode_beq (opcode_formatRM _ r byte), fieldA_formatRM, lowByte_formatRM]

end Sys2Proof
end

section
/-! ## BRANCH-IF-EQUAL at the execute stage, at the step, and as a loop on itself (R140) -/

namespace Sys2Proof.Machine

variable {s : State} {r : Reg} {target8 : Byte}

@[simp] theorem wordAt_setPc (s : State) (a b : Addr) : wordAt (setPc s a) b = wordAt s b := rfl

/-- The two bytes of a word, the second one's address written as a number: at 255 it is 0 (R45). -/
theorem wordAt_eq_toNat (s : State) (a : Addr) :
    wordAt s a = wordOfBytes (memRead s a) (memRead s (BitVec.ofNat 8 ((a.toNat + 1) % 256))) := by
  have hnext : a + 1#8 = BitVec.ofNat 8 ((a.toNat + 1) % 256) := by
    apply BitVec.eq_of_toNat_eq
    rw [BitVec.toNat_add, BitVec.toNat_ofNat, BitVec.toNat_ofNat, Nat.mod_mod]
  rw [wordAt, hnext]

theorem exec_beq (s : State) (r : Reg) (target8 : Byte) :
    exec (.beq r target8) s = .next (if readReg s r = readReg s 0#4 then setPc s target8 else s) := by
  split
  next heq => exact exec_beq_of_eq target8 heq
  next hne => exact exec_beq_of_ne target8 hne

theorem onlyPcWritten_refl (s : State) : OnlyPcWritten s s :=
  ⟨fun _ _ => rfl, fun _ _ => rfl, rfl, rfl⟩

theorem onlyPcWritten_setPc (s : State) (a : Addr) : OnlyPcWritten s (setPc s a) :=
  ⟨fun q _ => readReg_setPc s q a, fun b _ => memRead_setPc s a b, setPc_ir s a, setPc_runState s a⟩

theorem exec_beq_onlyPcWritten {t : State} (h : exec (.beq r target8) s = .next t) : OnlyPcWritten s t := by
  rw [exec_beq] at h
  cases h
  split
  · exact onlyPcWritten_setPc s target8
  · exact onlyPcWritten_refl s

/-- The step of a branch: the target if taken, else where fetch left `pc`; RUNNING either way. -/
theorem stepTransaction_beq (hr : s.runState = .running) (hd : decode (fetch s).ir = .beq r target8) :
    stepTransaction s = (if readReg s r = readReg s 0#4 then setPc (fetch s) target8 else fetch s, .continues) := by
  have hexec := exec_beq (fetch s) r target8
  have hrun : _ = RunState.running := exec_runState hexec hr
  have hstep := calc
    step s = exec (decode (fetch s).ir) (fetch s) := step_running hr
    _ = exec (.beq r target8) (fetch s) := by rw [hd]
    _ = _ := hexec
  rw [stepTransaction_next hstep, if_pos hrun, readReg_fetch, readReg_fetch]

theorem stepTransaction_beq_of_eq (hr : s.runState = .running) (hd : decode (fetch s).ir = .beq r target8)
    (heq : readReg s r = readReg s 0#4) : stepTransaction s = (setPc (fetch s) target8, .continues) := by
  rw [stepTransaction_beq hr hd, if_pos heq]

/-- A taken branch to its own address leaves the same branch, to be taken again, at the same `pc`. -/
theorem runSteps_beq_self (n : Nat) (hr : s.runState = .running) (hd : decode (fetch s).ir = .beq r s.pc)
    (heq : readReg s r = readReg s 0#4) : (runSteps n s).runState = .running ∧ (runSteps n s).pc = s.pc := by
  induction n generalizing s with
  | zero => exact ⟨hr, rfl⟩
  | succ n ih =>
    have hd' : decode (fetch (setPc (fetch s) s.pc)).ir = .beq r s.pc := by
      rw [fetch_ir, setPc_pc, wordAt_setPc, wordAt_fetch, ← fetch_ir, hd]
    rw [runSteps, stepTransaction_beq_of_eq hr hd heq]
    exact ih hr hd' heq

/-- Settles O28: the execute stage writes `pc` at most; the taken step's state is fetch's with `pc` at the target, from which
the next fetch and the loop to the own address follow. -/
theorem branchGoesToTheTargetExactlyWhenEqual : Obligations.BranchGoesToTheTargetExactlyWhenEqual := by
  unfold Obligations.BranchGoesToTheTargetExactlyWhenEqual
  refine ⟨fun r target8 => ⟨decode_formatRM_beq r target8, fun s => ?_⟩,
    fun s r target8 hr hd => ⟨?_, ?_, fun heq => ⟨?_, ?_⟩⟩⟩
  · obtain ⟨t, ht⟩ := exec_completes (.beq r target8) s
    have hpc := exec_beq_pc ht
    exact ⟨t, ht, fun heq => hpc.trans (if_pos heq), fun hne => hpc.trans (if_neg hne), exec_beq_onlyPcWritten ht⟩
  · rw [stepTransaction_beq hr hd]
  · rw [stepTransaction_beq hr hd]
    split
    · rw [setPc_pc]
    · exact fetch_pc_toNat s
  · rw [stepTransaction_beq_of_eq hr hd heq, fetch_ir, setPc_pc, wordAt_setPc, wordAt_fetch, wordAt_eq_toNat]
  · rintro rfl n
    exact runSteps_beq_self n hr hd heq

end Sys2Proof.Machine
end

section
/-! ## The words of formats MV, ROT and N, whatever their ignored bits hold (R63, R65, R66) -/

namespace Sys2Proof

/-- Four bits and the twelve below them form a word whose opcode is the four. -/
@[simp] theorem opcode_append (op : BitVec 4) (low : BitVec 12) : opcode (op ++ low) = op := by
  apply BitVec.eq_of_toNat_eq
  have hlow : low.toNat < 4096 := low.isLt
  rw [opcode_toNat, BitVec.toNat_append, ← Nat.shiftLeft_add_eq_or_of_lt hlow, Nat.shiftLeft_eq]
  omega

@[simp] theorem decode_formatRRR_move (ignored s d : Reg) : decode (formatRRR 0x4#4 ignored s d) = .move d s := by
  rw [decode_of_opcode_move (opcode_formatRRR _ ignored s d), fieldC_formatRRR, fieldB_formatRRR]

/-- The count of ROTATE is the low three bits of the field in bits 7:4. -/
theorem fieldCount_eq (w : Word) : fieldCount w = (fieldB w).setWidth 3 := rfl

@[simp] theorem decode_formatRRR_ror (r field low : BitVec 4) :
    decode (formatRRR 0xA#4 r field low) = .ror r (field.setWidth 3) := by
  rw [decode_of_opcode_ror (opcode_formatRRR _ r field low), fieldA_formatRRR, fieldCount_eq, fieldB_formatRRR]

@[simp] theorem decode_formatROT_ror (r : Reg) (n : Count) : decode (formatROT 0xA#4 r n) = .ror r n := by
  rw [formatROT_eq, decode_formatRRR_ror, BitVec.setWidth_append_eq_right]

end Sys2Proof
end

section
/-! ## Decode after encode (R66, R70) -/

namespace Sys2Proof

/-- Every instruction's word decodes to it: the opcode selects the row, and the row's format gives the operands back. -/
@[simp] theorem decode_encode (i : Instr) : decode (encode i) = i := by
  cases i with
  | undef0 => exact decode_of_opcode_undef0 (opcode_formatN _)
  | load d addr8 => exact decode_formatRM_load d addr8
  | set d imm8 => exact decode_formatRM_set d imm8
  | store s addr8 => exact decode_formatRM_store s addr8
  | move d s => exact decode_formatRRR_move 0x0#4 s d
  | add d a b => exact decode_formatRRR_add d a b
  | undef6 => exact decode_of_opcode_undef6 (opcode_formatN _)
  | or d a b => exact decode_formatRRR_or d a b
  | and d a b => exact decode_formatRRR_and d a b
  | xor d a b => exact decode_formatRRR_xor d a b
  | ror r n => exact decode_formatROT_ror r n
  | beq r target8 => exact decode_formatRM_beq r target8
  | halt => exact decode_of_opcode_halt (opcode_formatN _)
  | undefD => exact decode_of_opcode_undefD (opcode_formatN _)
  | undefE => exact decode_of_opcode_undefE (opcode_formatN _)
  | undefF => exact decode_of_opcode_undefF (opcode_formatN _)

theorem decodeBytes_encodeBytes_append (i : Instr) (rest : List Byte) :
    decodeBytes (encodeBytes i ++ rest) = .ok (i, rest) := by
  simp [encodeBytes, decodeBytes]

/-- Settles O4, one constructor at a time on words; the two bytes of a word form it again. -/
theorem decodeOfEncodeIsTheInstruction : Obligations.DecodeOfEncodeIsTheInstruction := by
  unfold Obligations.DecodeOfEncodeIsTheInstruction
  exact fun i => ⟨decode_encode i, decodeBytes_encodeBytes_append i⟩

end Sys2Proof
end

section
/-! ## What stopped a stopped machine (R27, R29, R161) -/

namespace Sys2Proof

variable {i : Instr}

theorem runStateAfter_eq_halted_iff : i.runStateAfter = .halted ↔ i.opcode = 0xC#4 := by
  cases i <;> simp [Instr.runStateAfter, Instr.opcode]

theorem runStateAfter_eq_faulted_iff : i.runStateAfter = .faulted ↔ isUndefinedOpcode i.opcode := by
  cases i <;> simp [Instr.runStateAfter, Instr.opcode, isUndefinedOpcode]

end Sys2Proof

namespace Sys2Proof.Machine

variable {s t : State}

theorem stopWordAgrees_of_running (h : s.runState = .running) : StopWordAgrees s := by
  simp [StopWordAgrees, h]

/-- Fetch leaves `ir` the word two bytes before `pc`. -/
theorem wordAt_fetch_pc_sub (s : State) : wordAt (fetch s) ((fetch s).pc - 2#8) = (fetch s).ir := by
  rw [fetch_pc, wordAt_fetch, fetch_ir]
  congr 1
  exact BitVec.add_sub_cancel s.pc 2#8

theorem stopWordAgrees_haltHalted_fetch (h : opcode (wordAt s s.pc) = 0xC#4) :
    StopWordAgrees (haltHalted (fetch s)) :=
  ⟨h, wordAt_fetch_pc_sub s⟩

theorem stopWordAgrees_raiseFaultHalt_fetch (h : isUndefinedOpcode (opcode (wordAt s s.pc))) :
    StopWordAgrees (raiseFaultHalt (fetch s)) :=
  ⟨h, wordAt_fetch_pc_sub s⟩

/-- Of the six shapes of a next state four stay RUNNING; the two halts keep what fetch left in `ir`, `pc` and memory. -/
theorem step_stopWordAgrees (h : step s = .next t) : StopWordAgrees t := by
  obtain ⟨hr, hexec⟩ := step_cases h
  have hop := decode_opcode (wordAt s s.pc)
  obtain ⟨r, v, -, rfl⟩ | ⟨src, a, -, rfl⟩ | ⟨r, a, -, -, rfl⟩ | ⟨r, a, -, -, rfl⟩ | ⟨hi, rfl⟩ | ⟨hi, rfl⟩ :=
    exec_cases hexec
  · exact stopWordAgrees_of_running hr
  · exact stopWordAgrees_of_running hr
  · exact stopWordAgrees_of_running hr
  · exact stopWordAgrees_of_running hr
  · exact stopWordAgrees_haltHalted_fetch (by rw [← hop, hi]; rfl)
  · exact stopWordAgrees_raiseFaultHalt_fetch (by rw [← hop]; exact runStateAfter_eq_faulted_iff.1 hi)

end Sys2Proof.Machine
end

section
/-! ## The invariant through the host's operations (R87, R180 to R183) -/

namespace Sys2Proof.Machine

variable {s t : State}

theorem step_stateInv (hinv : StateInv s) (h : step s = .next t) : StateInv t :=
  ⟨step_mem_wf h hinv.memWf, step_stopWordAgrees h⟩

/-- Settles O41: a step keeps memory canonical and records in `ir` and `pc` what stopped the machine. -/
theorem stepKeepsTheInvariant : Obligations.StepKeepsTheInvariant := by
  unfold Obligations.StepKeepsTheInvariant
  exact fun s t hinv h => step_stateInv hinv h

theorem reset_stateInv : StateInv State.reset := ⟨Memory.wf_nil, trivial⟩

/-- Settles O40: reset lists no cell and is RUNNING. -/
theorem resetSatisfiesTheInvariant : Obligations.ResetSatisfiesTheInvariant := by
  unfold Obligations.ResetSatisfiesTheInvariant
  exact reset_stateInv

@[simp] theorem loadedState_x (s : State) (words : List Word) : (loadedState s words).x = s.x := by
  simp [loadedState]

@[simp] theorem loadedState_runState (s : State) (words : List Word) : (loadedState s words).runState = .running := by
  simp [loadedState]

/-- The program is placed in the memory load cleared, whatever the form of the memory before. -/
theorem loadedState_mem_wf (s : State) (words : List Word) : (loadedState s words).mem.wf = true :=
  placeWords_wf words Memory.wf_nil _

theorem load_stateInv (words : List Word) (hinv : StateInv s) : StateInv (load s words).1 := by
  by_cases hlen : words.length ≤ 128
  · rw [load_of_le hlen]
    exact ⟨loadedState_mem_wf s words, stopWordAgrees_of_running (loadedState_runState s words)⟩
  · rw [load_of_not_le hlen]
    exact hinv

/-- A running machine completes its step. -/
theorem step_completes (h : s.runState = .running) : ∃ t, step s = .next t := by
  rw [step_running h]
  exact exec_completes _ _

theorem stepTransaction_stateInv (hinv : StateInv s) : StateInv (stepTransaction s).1 := by
  by_cases hr : s.runState = .running
  · obtain ⟨t, ht⟩ := step_completes hr
    rw [stepTransaction_next ht]
    exact step_stateInv hinv ht
  · rw [stepTransaction_stopped hr]
    exact hinv

theorem runSteps_stateInv (n : Nat) (hinv : StateInv s) : StateInv (runSteps n s) := by
  induction n generalizing s with
  | zero => exact hinv
  | succ n ih => exact ih (stepTransaction_stateInv hinv)

/-- Settles O42, by induction on the number of step transactions, each a step or a refusal without change. -/
theorem hostOperationsKeepTheInvariant : Obligations.HostOperationsKeepTheInvariant := by
  unfold Obligations.HostOperationsKeepTheInvariant
  exact ⟨reset_stateInv, fun s words hinv => load_stateInv words hinv, fun n s hinv => runSteps_stateInv n hinv⟩

end Sys2Proof.Machine
end

section
/-! ## The row of a word and its fields (R62, R63, R66) -/

namespace Sys2Proof

/-- What a word decodes to, by its opcode: the sixteen rows, each with the fields its format draws. -/
inductive DecodedAs (w : Word) : Instr → Prop
  | undef0 (hop : opcode w = 0x0#4) : DecodedAs w .undef0
  | load (hop : opcode w = 0x1#4) : DecodedAs w (.load (fieldA w) (lowByte w))
  | set (hop : opcode w = 0x2#4) : DecodedAs w (.set (fieldA w) (lowByte w))
  | store (hop : opcode w = 0x3#4) : DecodedAs w (.store (fieldA w) (lowByte w))
  | move (hop : opcode w = 0x4#4) : DecodedAs w (.move (fieldC w) (fieldB w))
  | add (hop : opcode w = 0x5#4) : DecodedAs w (.add (fieldA w) (fieldB w) (fieldC w))
  | undef6 (hop : opcode w = 0x6#4) : DecodedAs w .undef6
  | or (hop : opcode w = 0x7#4) : DecodedAs w (.or (fieldA w) (fieldB w) (fieldC w))
  | and (hop : opcode w = 0x8#4) : DecodedAs w (.and (fieldA w) (fieldB w) (fieldC w))
  | xor (hop : opcode w = 0x9#4) : DecodedAs w (.xor (fieldA w) (fieldB w) (fieldC w))
  | ror (hop : opcode w = 0xA#4) : DecodedAs w (.ror (fieldA w) (fieldCount w))
  | beq (hop : opcode w = 0xB#4) : DecodedAs w (.beq (fieldA w) (lowByte w))
  | halt (hop : opcode w = 0xC#4) : DecodedAs w .halt
  | undefD (hop : opcode w = 0xD#4) : DecodedAs w .undefD
  | undefE (hop : opcode w = 0xE#4) : DecodedAs w .undefE
  | undefF (hop : opcode w = 0xF#4) : DecodedAs w .undefF

theorem decodedAs_decode (w : Word) : DecodedAs w (decode w) := by
  unfold decode
  split <;> constructor <;> exact opcode_eq_bits w _ _ _ _ ‹_› ‹_› ‹_› ‹_› _ (by decide)

theorem opcode_div_of_eq {w : Word} {op : BitVec 4} (h : opcode w = op) : w.toNat / 4096 = op.toNat := by
  rw [← h, opcode_toNat]

theorem fieldCount_toNat (w : Word) : (fieldCount w).toNat = w.toNat / 16 % 8 := by
  rw [fieldCount_eq, BitVec.toNat_setWidth, fieldB_toNat]
  omega

/-- Settles O3, row by row: each operand is a field of the word, and each field is known as a number. -/
theorem decodedOperandsAreTheFieldsOfTheFormat : Obligations.DecodedOperandsAreTheFieldsOfTheFormat := by
  unfold Obligations.DecodedOperandsAreTheFieldsOfTheFormat
  intro w
  have hdec := decodedAs_decode w
  generalize decode w = i at hdec ⊢
  cases hdec with
  | undef0 hop | undef6 hop | halt hop | undefD hop | undefE hop | undefF hop => exact opcode_div_of_eq hop
  | load hop | set hop | store hop | beq hop =>
    exact ⟨opcode_div_of_eq hop, fieldA_toNat w, lowByte_toNat w⟩
  | move hop => exact ⟨opcode_div_of_eq hop, fieldB_toNat w, fieldC_toNat w⟩
  | add hop | or hop | and hop | xor hop =>
    exact ⟨opcode_div_of_eq hop, fieldA_toNat w, fieldB_toNat w, fieldC_toNat w⟩
  | ror hop => exact ⟨opcode_div_of_eq hop, fieldA_toNat w, fieldCount_toNat w⟩

end Sys2Proof
end

section
/-! ## A word as its four fields, and masks field by field (R63, R65) -/

namespace Sys2Proof

variable (w : Word) (p q r u : BitVec 4)

/-- A word masked field by field keeps of each field the bits of that field's mask. -/
theorem and_formatRRR :
    w &&& formatRRR p q r u = formatRRR (opcode w &&& p) (fieldA w &&& q) (fieldB w &&& r) (fieldC w &&& u) := by
  apply BitVec.eq_of_getLsbD_eq
  intro i hi
  rw [BitVec.getLsbD_and, getLsbD_formatRRR, getLsbD_formatRRR]
  split
  next h4 => rw [BitVec.getLsbD_and, getLsbD_fieldC, decide_eq_true h4, Bool.true_and]
  split
  next h8 =>
    rw [BitVec.getLsbD_and, getLsbD_fieldB, decide_eq_true (by omega : i - 4 < 4), Bool.true_and,
      show 4 + (i - 4) = i by omega]
  split
  next h12 =>
    rw [BitVec.getLsbD_and, getLsbD_fieldA, decide_eq_true (by omega : i - 8 < 4), Bool.true_and,
      show 8 + (i - 8) = i by omega]
  next h12 =>
    rw [BitVec.getLsbD_and, getLsbD_opcode, decide_eq_true (by omega : i - 12 < 4), Bool.true_and,
      show 12 + (i - 12) = i by omega]

theorem and_fifteen : p &&& 0xF#4 = p := BitVec.and_allOnes

/-- A word is its four fields in order. -/
theorem formatRRR_fields : formatRRR (opcode w) (fieldA w) (fieldB w) (fieldC w) = w := by
  have hones : w &&& formatRRR 0xF#4 0xF#4 0xF#4 0xF#4 = w := BitVec.and_allOnes
  rwa [and_formatRRR, and_fifteen, and_fifteen, and_fifteen, and_fifteen] at hones

/-- Format RM is format RRR with a byte in place of the two last fields. -/
theorem formatRM_append : formatRM p q (r ++ u) = formatRRR p q r u := by
  show (p ++ q : BitVec 8) ++ (r ++ u : BitVec 8) = ((p ++ q : BitVec 8) ++ r : BitVec 12) ++ u
  exact BitVec.append_assoc.symm

theorem highNibble_append_lowNibble (y : Byte) : highNibble y ++ lowNibble y = y := by
  revert y
  decide

/-- A word is its opcode, its register field and its low byte. -/
theorem formatRM_fields : formatRM (opcode w) (fieldA w) (lowByte w) = w := by
  rw [← highNibble_append_lowNibble (lowByte w), formatRM_append]
  exact formatRRR_fields w

theorem formatN_opcode : formatN (opcode w) = w &&& ~~~0x0FFF#16 := (and_opcodeMask w).symm

theorem formatMV_fields : formatMV (opcode w) (fieldB w) (fieldC w) = w &&& ~~~0x0F00#16 := by
  have hmask : ~~~0x0F00#16 = formatRRR 0xF#4 0x0#4 0xF#4 0xF#4 := rfl
  rw [hmask, and_formatRRR, formatMV_eq, and_fifteen, and_fifteen, and_fifteen, BitVec.and_zero]

/-- Bit 7 is the one bit of the count's field that is ignored. -/
theorem append_fieldCount : (0#1 ++ fieldCount w : BitVec 4) = fieldB w &&& 0x7#4 := by
  rw [fieldCount_eq]
  generalize fieldB w = field
  revert field
  decide

theorem formatROT_fields : formatROT (opcode w) (fieldA w) (fieldCount w) = w &&& ~~~0x008F#16 := by
  have hmask : ~~~0x008F#16 = formatRRR 0xF#4 0xF#4 0x7#4 0x0#4 := rfl
  rw [hmask, and_formatRRR, formatROT_eq, append_fieldCount, and_fifteen, and_fifteen, BitVec.and_zero]

end Sys2Proof
end

section
/-! ## Encode after decode, and which words decode alike (R65, R70) -/

namespace Sys2Proof

/-- A format without ignored bits keeps every bit of a word. -/
theorem and_not_zero_mask (w : Word) : w &&& ~~~0x0000#16 = w := BitVec.and_allOnes

theorem encode_decode (w : Word) : encode (decode w) = w &&& ~~~(decode w).ignoredMask := by
  have hdec := decodedAs_decode w
  generalize decode w = i at hdec ⊢
  cases hdec with
  | undef0 hop | undef6 hop | halt hop | undefD hop | undefE hop | undefF hop =>
    rw [Instr.ignoredMask, ← formatN_opcode, hop, encode]
  | load hop | set hop | store hop | beq hop =>
    rw [Instr.ignoredMask, and_not_zero_mask, encode, ← hop, formatRM_fields]
  | move hop => rw [Instr.ignoredMask, ← formatMV_fields, hop, encode]
  | add hop | or hop | and hop | xor hop =>
    rw [Instr.ignoredMask, and_not_zero_mask, encode, ← hop, formatRRR_fields]
  | ror hop => rw [Instr.ignoredMask, ← formatROT_fields, hop, encode]

/-- Settles O5, row by row: each format's word is the decoded one with the format's ignored fields 0. -/
theorem encodeOfDecodeZeroesTheIgnoredBits : Obligations.EncodeOfDecodeZeroesTheIgnoredBits := by
  unfold Obligations.EncodeOfDecodeZeroesTheIgnoredBits
  exact encode_decode

theorem and_not_or (x m : Word) : x &&& ~~~m ||| m = x ||| m := by
  ext i hi
  cases hm : m[i] <;> simp [hm]

theorem or_and_not (x m : Word) : (x ||| m) &&& ~~~m = x &&& ~~~m := by
  ext i hi
  cases hm : m[i] <;> simp [hm]

/-- Two words agree outside a mask when they agree with its bits cleared, or with its bits set. -/
theorem and_not_eq_iff_or_eq {x y m : Word} : x &&& ~~~m = y &&& ~~~m ↔ x ||| m = y ||| m := by
  constructor <;> intro h
  · rw [← and_not_or x, h, and_not_or]
  · rw [← or_and_not x, h, or_and_not]

theorem opcode_or (w v : Word) : opcode (w ||| v) = opcode w ||| opcode v := by
  apply BitVec.eq_of_getLsbD_eq
  intro i hi
  rw [BitVec.getLsbD_or, getLsbD_opcode, getLsbD_opcode, getLsbD_opcode, BitVec.getLsbD_or, Bool.and_or_distrib_left]

/-- No format ignores a bit of the opcode. -/
theorem opcode_ignoredMask (i : Instr) : opcode i.ignoredMask = 0#4 := by
  cases i <;> rw [Instr.ignoredMask] <;> rfl

/-- The opcode alone fixes the format, and so the ignored bits: those of the instruction that the opcode's word with zeros
below decodes to. -/
theorem ignoredMask_eq_of_opcode (i : Instr) : i.ignoredMask = (decode (formatN i.opcode)).ignoredMask := by
  cases i <;> rw [Instr.ignoredMask, Instr.opcode] <;> rfl

/-- Settles O6: alike decoded words encode alike, which is their agreement outside the mask; words that agree outside it have
one opcode, so one mask, and decoding their common masked word gives both instructions. -/
theorem wordsDecodeAlikeExactlyWhenOnlyIgnoredBitsDiffer :
    Obligations.WordsDecodeAlikeExactlyWhenOnlyIgnoredBitsDiffer := by
  unfold Obligations.WordsDecodeAlikeExactlyWhenOnlyIgnoredBitsDiffer
  intro w v
  rw [← and_not_eq_iff_or_eq]
  constructor
  · intro h
    rw [← encode_decode, h, ← encode_decode]
  · intro h
    have hop : opcode w = opcode v := by
      have hor := congrArg opcode (and_not_eq_iff_or_eq.1 h)
      rwa [opcode_or, opcode_or, opcode_ignoredMask, BitVec.or_zero, BitVec.or_zero] at hor
    have hmask : (decode w).ignoredMask = (decode v).ignoredMask := by
      rw [ignoredMask_eq_of_opcode, ignoredMask_eq_of_opcode (decode v), decode_opcode, decode_opcode, hop]
    have henc : encode (decode w) = encode (decode v) := by
      rw [encode_decode, h, hmask, encode_decode]
    rw [← decode_encode (decode w), henc, decode_encode]

/-- Settles O7: the words are literals, and decode computes. -/
theorem wordsWrittenFromTheEncodingsDecode : Obligations.WordsWrittenFromTheEncodingsDecode := by
  unfold Obligations.WordsWrittenFromTheEncodingsDecode
  decide

end Sys2Proof
end

section
/-! ## The numbers of the formats' words (R63, R69) -/

namespace Sys2Proof

theorem formatRRR_toNat (op : BitVec 4) (d a b : Reg) :
    (formatRRR op d a b).toNat = nibbles op.toNat d.toNat a.toNat b.toNat := by
  generalize hw : formatRRR op d a b = w
  have hop : opcode w = op := by rw [← hw, opcode_formatRRR]
  have hd : fieldA w = d := by rw [← hw, fieldA_formatRRR]
  have ha : fieldB w = a := by rw [← hw, fieldB_formatRRR]
  have hb : fieldC w = b := by rw [← hw, fieldC_formatRRR]
  rw [← hop, ← hd, ← ha, ← hb, opcode_toNat, fieldA_toNat, fieldB_toNat, fieldC_toNat, nibbles]
  omega

theorem formatRM_toNat (op : BitVec 4) (r : Reg) (byte : Byte) :
    (formatRM op r byte).toNat = nibbles op.toNat r.toNat 0 0 + byte.toNat := by
  rw [← highNibble_append_lowNibble byte, formatRM_append, formatRRR_toNat, highNibble_append_lowNibble,
    highNibble_toNat, lowNibble_toNat, nibbles, nibbles]
  omega

theorem formatROT_toNat (op : BitVec 4) (r : Reg) (n : Count) :
    (formatROT op r n).toNat = nibbles op.toNat r.toNat n.toNat 0 := by
  have hn : (0#1 ++ n : BitVec 4).toNat = n.toNat := by
    revert n
    decide
  rw [formatROT_eq, formatRRR_toNat, hn, BitVec.toNat_ofNat]

end Sys2Proof
end

section
/-! ## The source line of an instruction and the word it assembles to (R69 to R71) -/

namespace Sys2Proof

theorem isReg_toNat (r : Reg) : isReg r.toNat = true := decide_eq_true r.isLt

theorem isByte_toNat (byte : Byte) : isByte byte.toNat = true := decide_eq_true byte.isLt

theorem isCount_toNat (n : Count) : isCount n.toNat = true := decide_eq_true n.isLt

/-- A line with its operands in range assembles to the word that its code is the number of. -/
theorem assemble_eq_some {line : AsmLine} {w : Word} (hwf : line.wellFormed = true) (hcode : w.toNat = line.code) :
    assemble line = some w := by
  rw [assemble, if_pos hwf, ← hcode, BitVec.ofNat_toNat, BitVec.setWidth_eq]

/-- A line out of range has no word. -/
theorem assemble_eq_none {line : AsmLine} (hwf : line.wellFormed = false) : assemble line = none := by
  rw [assemble, if_neg (by rw [hwf]; decide)]

theorem assemble_word (w : Word) : assemble (.word w.toNat) = some w :=
  assemble_eq_some (decide_eq_true w.isLt) rfl

/-- An instruction's own line, if it has one: an undefined opcode has none and is written `.word` (R69, R143). -/
def Instr.line : Instr → Option AsmLine
  | .load d addr8 => some (.load d.toNat addr8.toNat)
  | .set d imm8 => some (.set d.toNat imm8.toNat)
  | .store s addr8 => some (.store s.toNat addr8.toNat)
  | .move d s => some (.move d.toNat s.toNat)
  | .add d a b => some (.add d.toNat a.toNat b.toNat)
  | .or d a b => some (.or d.toNat a.toNat b.toNat)
  | .and d a b => some (.and d.toNat a.toNat b.toNat)
  | .xor d a b => some (.xor d.toNat a.toNat b.toNat)
  | .ror r n => some (.ror r.toNat n.toNat)
  | .beq r target8 => some (.beq r.toNat target8.toNat)
  | .halt => some .halt
  | .undef0 | .undef6 | .undefD | .undefE | .undefF => none

/-- The disassembler prints the decoded instruction's own line, or else the word. -/
theorem disassemble_eq (w : Word) : disassemble w = (decode w).line.getD (.word w.toNat) := by
  unfold disassemble
  cases decode w <;> rfl

theorem line_eq_none_iff (i : Instr) : i.line = none ↔ isUndefinedOpcode i.opcode := by
  cases i <;> simp [Instr.line, Instr.opcode, isUndefinedOpcode]

/-- An instruction's own line has every operand in range, and its code is the number of the instruction's word. -/
theorem assemble_line {i : Instr} {l : AsmLine} (hl : i.line = some l) : assemble l = some (encode i) := by
  cases i with
  | undef0 | undef6 | undefD | undefE | undefF => cases hl
  | load r byte | set r byte | store r byte | beq r byte =>
    cases hl
    exact assemble_eq_some (by simp [AsmLine.wellFormed, isReg_toNat, isByte_toNat]) (formatRM_toNat _ r byte)
  | move d s =>
    cases hl
    exact assemble_eq_some (by simp [AsmLine.wellFormed, isReg_toNat]) (formatRRR_toNat _ _ s d)
  | add d a b | or d a b | and d a b | xor d a b =>
    cases hl
    exact assemble_eq_some (by simp [AsmLine.wellFormed, isReg_toNat]) (formatRRR_toNat _ d a b)
  | ror r n =>
    cases hl
    exact assemble_eq_some (by simp [AsmLine.wellFormed, isReg_toNat, isCount_toNat]) (formatROT_toNat _ r n)
  | halt =>
    cases hl
    rfl

theorem exists_line_of_defined {w : Word} (h : ¬ isUndefinedOpcode (opcode w)) : ∃ l, (decode w).line = some l := by
  rw [← decode_opcode, ← line_eq_none_iff] at h
  exact Option.ne_none_iff_exists'.1 h

theorem assemble_disassemble_of_defined {w : Word} (h : ¬ isUndefinedOpcode (opcode w)) :
    assemble (disassemble w) = some (encode (decode w)) := by
  obtain ⟨l, hl⟩ := exists_line_of_defined h
  rw [disassemble_eq, hl]
  exact assemble_line hl

theorem assemble_disassemble_of_undefined {w : Word} (h : isUndefinedOpcode (opcode w)) :
    assemble (disassemble w) = some w := by
  rw [← decode_opcode, ← line_eq_none_iff] at h
  rw [disassemble_eq, h]
  exact assemble_word w

theorem disassemble_eq_of_decode_eq {w v : Word} (hdef : ¬ isUndefinedOpcode (opcode w)) (h : decode w = decode v) :
    disassemble w = disassemble v := by
  obtain ⟨l, hl⟩ := exists_line_of_defined hdef
  rw [disassemble_eq, disassemble_eq, ← h, hl]
  rfl

/-- Settles O8: the disassembler prints the decoded instruction's own line or `.word`, and each line's code is the number of
the word that its format gives its operands. -/
theorem assemblerAndDisassemblerAgreeWithDecode : Obligations.AssemblerAndDisassemblerAgreeWithDecode := by
  unfold Obligations.AssemblerAndDisassemblerAgreeWithDecode
  refine ⟨fun w h => assemble_disassemble_of_defined h, fun w h => assemble_disassemble_of_undefined h, assemble_word,
    fun w v hdef h => disassemble_eq_of_decode_eq hdef h, fun t => ?_, rfl, fun d => ?_,
    fun line h => assemble_eq_none h⟩
  · exact assemble_eq_some (isByte_toNat t) (formatRM_toNat 0xB#4 0#4 t)
  · exact assemble_eq_some (isReg_toNat d) (formatRM_toNat 0x2#4 d 0#8)

end Sys2Proof
end

section
/-! ## Fetch, and the step on the word it reads (R43, R45, R80, R81) -/

namespace Sys2Proof.Machine

variable {s t : State}

theorem wordOfBytes_toNat (hi lo : Byte) : (wordOfBytes hi lo).toNat = hi.toNat * 256 + lo.toNat := by
  have hhigh := highByte_toNat (wordOfBytes hi lo)
  have hlow := lowByte_toNat (wordOfBytes hi lo)
  rw [highByte_wordOfBytes] at hhigh
  rw [lowByte_wordOfBytes] at hlow
  omega

theorem wordOfBytes_eq_ofNat (hi lo : Byte) : wordOfBytes hi lo = BitVec.ofNat 16 (hi.toNat * 256 + lo.toNat) := by
  rw [← wordOfBytes_toNat, BitVec.ofNat_toNat, BitVec.setWidth_eq]

/-- Settles O9: the two bytes are the word that fetch puts in `ir`, and two bytes alone decode as their word. -/
theorem stepRunsTheInstructionAtPc : Obligations.StepRunsTheInstructionAtPc := by
  unfold Obligations.StepRunsTheInstructionAtPc
  rintro s i hi lo hr rfl rfl hdec
  have hword : decode (wordAt s s.pc) = i := by cases hdec; rfl
  rw [step_running hr, hword, ← wordOfBytes_eq_ofNat]
  rfl

/-- Settles O10: the word's number is that of its two bytes, the second one's address taken modulo 256. -/
theorem fetchWritesOnlyIrAndPc : Obligations.FetchWritesOnlyIrAndPc := by
  unfold Obligations.FetchWritesOnlyIrAndPc
  refine fun s => ⟨?_, fetch_pc_toNat s, fun hpc => ⟨?_, ?_⟩, fun r _ => readReg_fetch s r, fun a _ => memRead_fetch s a,
    fetch_runState s⟩
  · rw [fetch_ir, wordAt_eq_toNat, wordOfBytes_toNat]
  · rw [fetch_ir, ← lowByte_toNat, lowByte_wordAt, hpc]
    rfl
  · rw [fetch_pc, hpc]
    rfl

/-- Settles O12: a running machine's instruction completes, and the transaction answers what step does. -/
theorem stepCompletesExactlyWhenRunning : Obligations.StepCompletesExactlyWhenRunning := by
  unfold Obligations.StepCompletesExactlyWhenRunning
  refine fun s => ⟨fun hr => ?_, fun hr => ⟨step_stopped hr, stepTransaction_stopped hr⟩⟩
  obtain ⟨t, ht⟩ := step_completes hr
  rw [stepTransaction_next ht]
  refine ⟨t, ht, rfl, ?_⟩
  split <;> exact StepResult.noConfusion

end Sys2Proof.Machine
end

section
/-! ## What the execute stage leaves unchanged (R24, R41, 40_fetch_decode_step.md section 4) -/

namespace Sys2Proof.Machine

variable {i : Instr} {s t : State}

/-- Of the six shapes of a next state only the register write has other registers. -/
theorem exec_regsKept (h : exec i s = .next t) : RegsKept s t i.regWritten.toList := by
  intro q hq
  obtain ⟨r, v, hi, rfl⟩ | ⟨src, a, -, rfl⟩ | ⟨r, a, -, -, rfl⟩ | ⟨r, a, -, -, rfl⟩ | ⟨-, rfl⟩ | ⟨-, rfl⟩ := exec_cases h
  · have hne : q ≠ r := by simpa [hi] using hq
    rw [readReg_writeReg, if_neg hne]
  · exact readReg_memWrite s q _ _
  · exact readReg_setPc s q _
  · rfl
  · exact readReg_haltHalted s q
  · exact readReg_raiseFaultHalt s q

/-- A byte that changed is the one a STORE names. -/
theorem exec_memKept (h : exec i s = .next t) : MemKept s t i.memStored.toList := by
  intro a ha
  by_contra hne
  obtain ⟨src, rfl⟩ := exec_store_of_memRead_ne h hne
  exact ha List.mem_cons_self

/-- A step's instruction leaves its run state. -/
theorem step_runState (h : step s = .next t) : t.runState = (decode (fetch s).ir).runStateAfter := by
  obtain ⟨hr, hexec⟩ := step_cases h
  exact exec_runState hexec hr

/-- Settles O14: the frame of the execute stage on the state fetch left, whose registers and memory are the old ones. -/
theorem stepWritesOnlyWhatItsInstructionNames : Obligations.StepWritesOnlyWhatItsInstructionNames := by
  unfold Obligations.StepWritesOnlyWhatItsInstructionNames
  intro s t h
  obtain ⟨hr, hexec⟩ := step_cases h
  refine ⟨fun r hr => (exec_regsKept hexec r hr).trans (readReg_fetch s r),
    fun a ha => (exec_memKept hexec a ha).trans (memRead_fetch s a), step_ir h, fun hne => ?_⟩
  rw [hr, step_runState h] at hne
  exact runStateAfter_ne_running_iff.1 hne

theorem load_runState (s : State) (words : List Word) :
    (load s words).1.runState = if words.length ≤ 128 then .running else s.runState := by
  by_cases hlen : words.length ≤ 128
  · rw [load_of_le hlen, if_pos hlen, loadedState_runState]
  · rw [load_of_not_le hlen, if_neg hlen]

/-- Settles O17: a step leaves its instruction's run state, which the opcode fixes. -/
theorem runStateIsWrittenByHaltFaultHaltAndLoadAlone : Obligations.RunStateIsWrittenByHaltFaultHaltAndLoadAlone := by
  unfold Obligations.RunStateIsWrittenByHaltFaultHaltAndLoadAlone
  refine ⟨fun s t h => ?_, fun s h => ?_, rfl, load_runState⟩
  · rw [step_runState h, ← decode_opcode]
    exact ⟨runStateAfter_eq_halted_iff, runStateAfter_eq_faulted_iff⟩
  · rw [stepTransaction_stopped h]

end Sys2Proof.Machine
end

section
/-! ## MOVE, ROTATE, HALT and the undefined opcodes at the execute stage (R103, R125, R142, R143) -/

namespace Sys2Proof.Machine

variable (s : State)

theorem exec_move (d src : Reg) : exec (.move d src) s = .next (writeReg s d (readReg s src)) := rfl

theorem exec_ror (r : Reg) (n : Count) : exec (.ror r n) s = .next (writeReg s r (ror8 (readReg s r) n.toNat)) := rfl

theorem exec_halt : exec .halt s = .next (haltHalted s) := rfl

/-- The five undefined opcodes have one effect. -/
theorem exec_of_faulted {i : Instr} (h : i.runStateAfter = .faulted) : exec i s = .next (raiseFaultHalt s) := by
  cases i with
  | undef0 | undef6 | undefD | undefE | undefF => rfl
  | _ => cases h

end Sys2Proof.Machine
end

section
/-! ## What an instruction's effect depends on (R24, R41) -/

namespace Sys2Proof.Machine

/-- Two states alike in all that an instruction can have written in them: `pc`, `run_state`, its destination register and the
byte it stores to. -/
structure EffectAlike (i : Instr) (t t' : State) : Prop where
  pc : t.pc = t'.pc
  runState : t.runState = t'.runState
  reg : ∀ r ∈ i.regWritten.toList, readReg t r = readReg t' r
  byte : ∀ a ∈ i.memStored.toList, memRead t a = memRead t' a

variable {i : Instr} {s s' : State}

theorem effectAlike_writeReg {d : Reg} {v v' : Byte} (hpc : s.pc = s'.pc) (hrun : s.runState = s'.runState)
    (hreg : i.regWritten = some d) (hmem : i.memStored = none) (hv : v = v') :
    EffectAlike i (writeReg s d v) (writeReg s' d v') where
  pc := hpc
  runState := hrun
  reg r hr := by
    obtain rfl : r = d := by simpa [hreg] using hr
    rw [readReg_writeReg_self, readReg_writeReg_self, hv]
  byte a ha := by simp [hmem] at ha

theorem effectAlike_memWrite {a : Addr} {v v' : Byte} (hpc : s.pc = s'.pc) (hrun : s.runState = s'.runState)
    (hreg : i.regWritten = none) (hmem : i.memStored = some a) (hv : v = v') :
    EffectAlike i (memWrite s a v) (memWrite s' a v') where
  pc := hpc
  runState := hrun
  reg r hr := by simp [hreg] at hr
  byte b hb := by
    obtain rfl : b = a := by simpa [hmem] using hb
    rw [memRead_memWrite_self, memRead_memWrite_self, hv]

/-- An instruction that names no register and no byte can have written `pc` and `run_state` alone. -/
theorem effectAlike_of_none {t t' : State} (hpc : t.pc = t'.pc) (hrun : t.runState = t'.runState)
    (hreg : i.regWritten = none) (hmem : i.memStored = none) : EffectAlike i t t' where
  pc := hpc
  runState := hrun
  reg r hr := by simp [hreg] at hr
  byte a ha := by simp [hmem] at ha

/-- The effects of one instruction on two states alike in what its row reads, one constructor at a time: each register or byte
written gets one function of the registers or the byte read. -/
theorem exec_effectAlike (i : Instr) (hpc : s.pc = s'.pc) (hrun : s.runState = s'.runState)
    (hreg : ∀ r ∈ i.regsRead, readReg s r = readReg s' r) (hmem : ∀ a ∈ i.memLoaded.toList, memRead s a = memRead s' a) :
    ∃ t t', exec i s = .next t ∧ exec i s' = .next t' ∧ EffectAlike i t t' := by
  cases i with
  | load d addr8 =>
    have hv : memRead s addr8 = memRead s' addr8 := hmem addr8 List.mem_cons_self
    exact ⟨_, _, exec_load s d addr8, exec_load s' d addr8, effectAlike_writeReg hpc hrun rfl rfl hv⟩
  | set d imm8 => exact ⟨_, _, exec_set s d imm8, exec_set s' d imm8, effectAlike_writeReg hpc hrun rfl rfl rfl⟩
  | store src addr8 =>
    have hv : readReg s src = readReg s' src := hreg src List.mem_cons_self
    exact ⟨_, _, exec_store s src addr8, exec_store s' src addr8, effectAlike_memWrite hpc hrun rfl rfl hv⟩
  | move d src =>
    have hv : readReg s src = readReg s' src := hreg src List.mem_cons_self
    exact ⟨_, _, exec_move s d src, exec_move s' d src, effectAlike_writeReg hpc hrun rfl rfl hv⟩
  | add d a b | or d a b | and d a b | xor d a b =>
    have ha : readReg s a = readReg s' a := hreg a List.mem_cons_self
    have hb : readReg s b = readReg s' b := hreg b (List.mem_cons_of_mem a List.mem_cons_self)
    exact ⟨_, _, rfl, rfl, effectAlike_writeReg hpc hrun rfl rfl (by simp only [regOperand_eq, ha, hb])⟩
  | ror r n =>
    have hv : readReg s r = readReg s' r := hreg r List.mem_cons_self
    exact ⟨_, _, exec_ror s r n, exec_ror s' r n, effectAlike_writeReg hpc hrun rfl rfl (by rw [hv])⟩
  | beq r target8 =>
    have hr : readReg s r = readReg s' r := hreg r List.mem_cons_self
    have h0 : readReg s 0#4 = readReg s' 0#4 := hreg 0#4 (List.mem_cons_of_mem r List.mem_cons_self)
    refine ⟨_, _, exec_beq s r target8, exec_beq s' r target8, ?_⟩
    rw [hr, h0]
    split
    · exact effectAlike_of_none rfl hrun rfl rfl
    · exact effectAlike_of_none hpc hrun rfl rfl
  | halt => exact ⟨_, _, exec_halt s, exec_halt s', effectAlike_of_none hpc rfl rfl rfl⟩
  | undef0 | undef6 | undefD | undefE | undefF =>
    exact ⟨_, _, exec_of_faulted s rfl, exec_of_faulted s' rfl, effectAlike_of_none hpc rfl rfl rfl⟩

/-- Settles O18 by the effects of the sixteen instructions. -/
theorem effectDependsOnlyOnWhatTheInstructionReads : Obligations.EffectDependsOnlyOnWhatTheInstructionReads := by
  unfold Obligations.EffectDependsOnlyOnWhatTheInstructionReads
  intro i s s' hpc hrun hreg hmem
  obtain ⟨t, t', ht, ht', ⟨hpc', hrun', hreg', hmem'⟩⟩ := exec_effectAlike i hpc hrun hreg hmem
  exact ⟨t, t', ht, ht', hpc', hrun', hreg', hmem'⟩

end Sys2Proof.Machine
end

section
/-! ## A store and the fetch after it (R50, R102) -/

namespace Sys2Proof.Machine

variable {s t : State} {src : Reg} {a : Addr}

/-- The step of a STORE: fetch's state with the byte written. -/
theorem step_store (hd : decode (fetch s).ir = .store src a) (h : step s = .next t) :
    t = memWrite (fetch s) a (readReg s src) := by
  have hexec : exec (decode (fetch s).ir) (fetch s) = .next t := (step_cases h).2
  rw [hd, exec_store] at hexec
  cases hexec
  rfl

theorem addr_ne_add_one (a : Addr) : a ≠ a + 1#8 := by bv_omega

/-- A byte stored at a word's first address is the word's first byte, the second as before. -/
theorem wordAt_memWrite_first (s : State) (a : Addr) (v : Byte) :
    wordAt (memWrite s a v) a = wordOfBytes v (memRead s (a + 1#8)) := by
  rw [wordAt, memRead_memWrite_self, memRead_memWrite, if_neg (addr_ne_add_one a).symm]

/-- A byte stored at a word's second address is the word's second byte, the first as before. -/
theorem wordAt_memWrite_second (s : State) (a : Addr) (v : Byte) :
    wordAt (memWrite s (a + 1#8) v) a = wordOfBytes (memRead s a) v := by
  rw [wordAt, memRead_memWrite_self, memRead_memWrite, if_neg (addr_ne_add_one a)]

/-- Settles O23: the store's state is fetch's with one byte written, and the next fetch reads the word at its `pc`. -/
theorem storeIsSeenByTheNextFetch : Obligations.StoreIsSeenByTheNextFetch := by
  unfold Obligations.StoreIsSeenByTheNextFetch
  intro s t src a hd h
  refine ⟨step_ir h, fun hpc => ?_, ?_⟩
  · rw [fetch_ir, hpc, step_store hd h, wordAt_memWrite_first, memRead_fetch]
  · rintro rfl
    have ht : wordAt t t.pc = wordAt (memWrite (fetch s) (t.pc + 1#8) (readReg s src)) t.pc := by
      rw [← step_store hd h]
    rw [fetch_ir, ht, wordAt_memWrite_second, memRead_fetch]

end Sys2Proof.Machine
end

section
/-! ## MOVE, ROTATE and ADD: the values they write (R103, R121, R125 to R127) -/

namespace Sys2Proof.Machine

/-- Settles O22: the next state is the register write of the source; a source that is the destination gets its own value. -/
theorem moveCopiesTheSourceRegister : Obligations.MoveCopiesTheSourceRegister := by
  unfold Obligations.MoveCopiesTheSourceRegister
  refine fun g s d => ⟨decode_formatRRR_move g s d, fun st => ⟨_, exec_move st d s, readReg_writeReg_self st d _, ?_,
    onlyRegWritten_writeReg st _ d⟩⟩
  rw [readReg_writeReg, ite_eq_right_iff]
  rintro rfl
  rfl

theorem ror8_zero (v : Byte) : ror8 v 0 = v := if_pos rfl

/-- The right shift gives the bits below `8 - n`, the left shift those that go around. -/
theorem getLsbD_ror8 (v : Byte) {n i : Nat} (hn : n < 8) (hi : i < 8) :
    (ror8 v n).getLsbD i = v.getLsbD ((i + n) % 8) := by
  by_cases h0 : n = 0
  · rw [h0, ror8_zero, Nat.add_zero, Nat.mod_eq_of_lt hi]
  have hbits : (ror8 v n).getLsbD i = (v.getLsbD (n + i) || (!decide (i < 8 - n) && v.getLsbD (i - (8 - n)))) := by
    rw [ror8, if_neg h0, BitVec.getLsbD_setWidth, BitVec.getLsbD_or, BitVec.getLsbD_ushiftRight,
      BitVec.getLsbD_shiftLeft, BitVec.getLsbD_setWidth, BitVec.getLsbD_setWidth]
    simp [hi, show i < 16 by omega, show n + i < 16 by omega, show i - (8 - n) < 16 by omega]
  rw [hbits]
  by_cases hwrap : i < 8 - n
  · rw [decide_eq_true hwrap, Nat.mod_eq_of_lt (by omega), Nat.add_comm]
    simp
  · have hidx : (i + n) % 8 = i - (8 - n) := by omega
    rw [decide_eq_false hwrap, hidx, BitVec.getLsbD_of_ge v (n + i) (by omega)]
    simp

/-- Settles O26: the field gives its low three bits as the count, and each bit of the result is one of the old ones. -/
theorem rotateMovesEveryBitRightAroundTheByte : Obligations.RotateMovesEveryBitRightAroundTheByte := by
  unfold Obligations.RotateMovesEveryBitRightAroundTheByte
  refine ⟨fun r field low => ?_, fun r n s => ⟨_, exec_ror s r n, fun i hi => ?_, ?_, onlyRegWritten_writeReg s _ r⟩⟩
  · have hcount : BitVec.ofNat 3 (field.toNat % 8) = field.setWidth 3 := by
      apply BitVec.eq_of_toNat_eq
      rw [BitVec.toNat_ofNat, BitVec.toNat_setWidth, Nat.mod_mod]
    rw [hcount]
    exact decode_formatRRR_ror r field low
  · rw [readReg_writeReg_self, getLsbD_ror8 _ n.isLt hi]
  · rintro rfl
    exact (readReg_writeReg_self s r _).trans (ror8_zero _)

/-- The truncated 9-bit sum is the sum of bit vectors. -/
theorem add8_eq_add (a b : Byte) : add8 a b = a + b := by
  apply BitVec.eq_of_toNat_eq
  rw [add8_toNat, BitVec.toNat_add]

/-- Flipping every bit and adding 1 negates. -/
theorem add8_add8_xor (a b : Byte) : add8 (add8 a (b ^^^ 0xFF#8)) 1#8 = a - b := by
  have hnot : b ^^^ 0xFF#8 = ~~~b := BitVec.xor_allOnes
  rw [add8_eq_add, add8_eq_add, hnot, BitVec.add_assoc, ← BitVec.neg_eq_not_add, BitVec.sub_eq_add_neg]

/-- Settles O27: `add8` is the library's sum, whose signed reading wraps, and the idiom is its difference. -/
theorem addAgreesInBothReadingsAndGivesSubtraction : Obligations.AddAgreesInBothReadingsAndGivesSubtraction := by
  unfold Obligations.AddAgreesInBothReadingsAndGivesSubtraction
  refine ⟨fun d a b s => ⟨_, exec_add d a b s, ?_⟩, fun a b => ?_⟩
  · rw [readReg_aluRRR_self, add8_eq_add, BitVec.toInt_add]
  · rw [add8_add8_xor, BitVec.toInt_sub]

end Sys2Proof.Machine
end

section
/-! ## HALT and the undefined opcodes (R142, R143, R160, R161) -/

namespace Sys2Proof.Machine

variable {s t : State}

theorem onlyRunStateWritten_haltHalted (s : State) : OnlyRunStateWritten s (haltHalted s) :=
  ⟨fun r _ => readReg_haltHalted s r, fun a _ => memRead_haltHalted s a, haltHalted_pc s, haltHalted_ir s⟩

theorem onlyRunStateWritten_raiseFaultHalt (s : State) : OnlyRunStateWritten s (raiseFaultHalt s) :=
  ⟨fun r _ => readReg_raiseFaultHalt s r, fun a _ => memRead_raiseFaultHalt s a, raiseFaultHalt_pc s,
    raiseFaultHalt_ir s⟩

theorem decode_append_halt (low : BitVec 12) : decode (0xC#4 ++ low) = .halt :=
  decode_of_opcode_halt (opcode_append _ low)

theorem stepTransaction_halt (hr : s.runState = .running) (hop : opcode (wordAt s s.pc) = 0xC#4) :
    stepTransaction s = (haltHalted (fetch s), .halt) := by
  have hstep : step s = .next (haltHalted (fetch s)) := by
    rw [step_running hr, decode_of_opcode_halt hop, exec_halt]
  rw [stepTransaction_next hstep]
  rfl

theorem stepTransaction_undefined (hr : s.runState = .running) (hop : isUndefinedOpcode (opcode (wordAt s s.pc))) :
    stepTransaction s = (raiseFaultHalt (fetch s), .halt) := by
  have hi : (decode (wordAt s s.pc)).runStateAfter = .faulted :=
    runStateAfter_eq_faulted_iff.2 (by rwa [decode_opcode])
  have hstep : step s = .next (raiseFaultHalt (fetch s)) := by
    rw [step_running hr, exec_of_faulted _ hi]
  rw [stepTransaction_next hstep]
  rfl

/-- Settles O29: the execute stage writes `run_state` alone, so the step leaves fetch's state HALTED, and the next is refused. -/
theorem haltStopsTheMachineInHalted : Obligations.HaltStopsTheMachineInHalted := by
  unfold Obligations.HaltStopsTheMachineInHalted
  refine ⟨decode_append_halt, fun s => ⟨_, exec_halt s, haltHalted_runState s, onlyRunStateWritten_haltHalted s⟩,
    fun s hr hop => ⟨stepTransaction_halt hr hop, ?_⟩⟩
  rw [stepTransaction_halt hr hop]
  exact stepTransaction_stopped (by rw [haltHalted_runState]; exact RunState.noConfusion)

/-- Settles O30: the five rows have one effect, the fault-halt, on whatever state fetch left. -/
theorem undefinedOpcodesTakeTheFaultHalt : Obligations.UndefinedOpcodesTakeTheFaultHalt := by
  unfold Obligations.UndefinedOpcodesTakeTheFaultHalt
  refine ⟨fun low => ⟨?_, ?_, ?_, ?_, ?_⟩, fun i hi s => ?_, fun s hr hop => stepTransaction_undefined hr hop⟩
  · exact decode_of_opcode_undef0 (opcode_append _ low)
  · exact decode_of_opcode_undef6 (opcode_append _ low)
  · exact decode_of_opcode_undefD (opcode_append _ low)
  · exact decode_of_opcode_undefE (opcode_append _ low)
  · exact decode_of_opcode_undefF (opcode_append _ low)
  · have hfault : ∀ i ∈ [Instr.undef0, .undef6, .undefD, .undefE, .undefF], i.runStateAfter = .faulted := by decide
    exact ⟨_, exec_of_faulted s (hfault i hi), raiseFaultHalt_runState s, onlyRunStateWritten_raiseFaultHalt s⟩

end Sys2Proof.Machine
end

section
/-! ## Runs of many steps (R87, R165, 70_reset_and_hazards.md section 3) -/

namespace Sys2Proof.Machine

variable {s t : State}

theorem runSteps_of_stopped (n : Nat) (h : s.runState ≠ .running) : runSteps n s = s := by
  induction n with
  | zero => rfl
  | succ n ih => rw [runSteps, stepTransaction_stopped h, ih]

theorem runSteps_add (k m : Nat) (s : State) : runSteps (k + m) s = runSteps m (runSteps k s) := by
  induction k generalizing s with
  | zero => rw [Nat.zero_add, runSteps]
  | succ k ih => rw [Nat.succ_add, runSteps, ih, runSteps]

/-- A clean end stays one: the steps after it are refused. -/
theorem haltsCleanlyWithin_iff (n : Nat) (s : State) : HaltsCleanlyWithin n s ↔ EndsCleanly (runSteps n s) := by
  constructor
  · rintro ⟨k, hk, hend⟩
    have hstopped : (runSteps k s).runState ≠ .running := by
      rw [show (runSteps k s).runState = .halted from hend]
      exact RunState.noConfusion
    obtain ⟨m, rfl⟩ := Nat.exists_eq_add_of_le hk
    rwa [runSteps_add, runSteps_of_stopped m hstopped]
  · exact fun hend => ⟨n, le_rfl, hend⟩

/-- Settles O31, by induction on the number of steps, each refused. -/
theorem stoppedMachineNeverResumes : Obligations.StoppedMachineNeverResumes := by
  unfold Obligations.StoppedMachineNeverResumes
  exact ⟨fun n s h => runSteps_of_stopped n h, haltsCleanlyWithin_iff⟩

/-- A step without a branch leaves `pc` where fetch put it. -/
theorem step_pc_of_ne_beq (h : step s = .next t) (hne : ∀ r target8, decode (wordAt s s.pc) ≠ .beq r target8) :
    t.pc.toNat = (s.pc.toNat + 2) % 256 := by
  rw [exec_pc_of_ne_beq (step_cases h).2 hne, fetch_pc_toNat]

/-- Settles O32, by induction on the run. -/
theorem stepsWithoutBranchAdvancePcByTwoEach : Obligations.StepsWithoutBranchAdvancePcByTwoEach := by
  unfold Obligations.StepsWithoutBranchAdvancePcByTwoEach
  intro n s t hrun
  induction hrun with
  | refl s =>
    have hpc : s.pc.toNat < 256 := s.pc.isLt
    omega
  | step hstep hne _ ih =>
    rw [ih, step_pc_of_ne_beq hstep hne]
    omega

end Sys2Proof.Machine
end

section
/-! ## Create, load and the placed word (R49, R180 to R183) -/

namespace Sys2Proof.Machine

variable {s : State} {words : List Word}

theorem readReg_reset (r : Reg) : readReg State.reset r = 0#8 := Vector.getElem_replicate _

/-- Settles O33: reset lists no cell, and the word of two zero bytes has the undefined opcode 0. -/
theorem createIsFullyZeroedAndFaultHaltsUnloaded : Obligations.CreateIsFullyZeroedAndFaultHaltsUnloaded := by
  unfold Obligations.CreateIsFullyZeroedAndFaultHaltsUnloaded
  exact ⟨rfl, rfl, rfl, readReg_reset, fun a => Memory.read_nil a.toNat, rfl, _, rfl, rfl, rfl, rfl⟩

/-- Settles O35: placing words touches memory alone. -/
theorem acceptedLoadKeepsRegistersAndSetsRunning : Obligations.AcceptedLoadKeepsRegistersAndSetsRunning := by
  unfold Obligations.AcceptedLoadKeepsRegistersAndSetsRunning
  exact fun s words hlen => ⟨_, load_of_le hlen, loadedState_ir s words,
    fun r _ => readReg_congr_x (loadedState_x s words) r, loadedState_runState s words⟩

theorem load_accepted_iff : (load s words).2 = .accepted ↔ words.length ≤ 128 := by
  by_cases hlen : words.length ≤ 128
  · simp [load_of_le hlen, hlen]
  · simp [load_of_not_le hlen, hlen]

/-- Settles O36: the two answers of a load, by the length. -/
theorem loadIsRejectedWholeWhenTooLong : Obligations.LoadIsRejectedWholeWhenTooLong := by
  unfold Obligations.LoadIsRejectedWholeWhenTooLong
  exact fun s words => ⟨load_accepted_iff, fun hlen => load_of_not_le (Nat.not_le.2 hlen)⟩

/-- After a load the word at address 0 is the program's first. -/
theorem wordAt_loadedState_zero {w : Word} {rest : List Word} (hlen : (w :: rest).length ≤ 128) :
    wordAt (loadedState s (w :: rest)) 0#8 = w := by
  have hload : loadedState s (w :: rest) = (load s (w :: rest)).1 := by rw [load_of_le hlen]
  have hhigh : memRead (load s (w :: rest)).1 0#8 = highByte w := memRead_load_high (k := 0) hlen rfl
  have hlow : memRead (load s (w :: rest)).1 (0#8 + 1#8) = lowByte w := memRead_load_low (k := 0) hlen rfl
  rw [hload, wordAt, hhigh, hlow, wordOfBytes_high_low]

/-- Settles O37: the loaded machine is RUNNING at address 0, where the first word stands. -/
theorem firstStepAfterLoadExecutesWordZero : Obligations.FirstStepAfterLoadExecutesWordZero := by
  unfold Obligations.FirstStepAfterLoadExecutesWordZero
  intro s w rest hlen
  have hword := wordAt_loadedState_zero (s := s) (w := w) hlen
  refine ⟨_, load_of_le hlen, ?_⟩
  rw [step_running (loadedState_runState s _), fetch, loadedState_pc, hword]
  rfl

/-- Placing a word of full width and making the machine RUNNING are the two parts of `withFetchWord`. -/
theorem withFetchWord_eq (s : State) (w : Word) :
    s.withFetchWord 16 w.toNat = setRunning (placeWord s s.pc w) := by
  rw [State.withFetchWord, Nat.mod_eq_of_lt w.isLt, BitVec.ofNat_toNat, BitVec.setWidth_eq]

/-- Settles O39: the word at `pc` is the one just placed, and placing it is two byte writes. -/
theorem placedWordIsTheNextInstruction : Obligations.PlacedWordIsTheNextInstruction := by
  unfold Obligations.PlacedWordIsTheNextInstruction
  intro s w
  rw [withFetchWord_eq]
  refine ⟨?_, fun r _ => readReg_congr_x (placeWord_x s s.pc w) r, fun a ha => ?_, rfl, rfl⟩
  · rw [step_running (setRunning_runState _), fetch, setRunning_pc, placeWord_pc, wordAt_setRunning, wordAt_placeWord]
  · obtain ⟨hfirst, hsecond⟩ : a ≠ s.pc ∧ a ≠ s.pc + 1#8 := by simpa using ha
    rw [memRead_setRunning, memRead_placeWord, if_neg hsecond, if_neg hfirst]

end Sys2Proof.Machine
end

section
/-! ## Canonical memory is determined by what it reads, and the snapshot shows the state (R31, R40, log entry 3) -/

namespace Sys2Proof.Machine

namespace Memory

variable {low k k' : Nat} {u u' : Byte} {rest rest' m m' : Memory}

theorem read_cons_self : Memory.read ((k, u) :: rest) k = u := if_pos rfl

/-- A canonical memory that reads 0 everywhere lists no cell, for a cell holds something else. -/
theorem eq_nil_of_read_unlisted (hwf : Memory.wfFrom low m = true)
    (hread : ∀ a, a < Config.memSize → m.read a = Memory.unlisted) : m = [] := by
  cases m with
  | nil => rfl
  | cons c rest =>
    obtain ⟨k, u⟩ := c
    obtain ⟨-, hk, hu, -⟩ := wfFrom_cons.1 hwf
    exact absurd (read_cons_self.symm.trans (hread k hk)) hu

/-- Of two canonical memories that read alike, neither lists its first cell below the other's: the other reads 0 there. -/
theorem first_le_of_read_eq (hwf : Memory.wfFrom low ((k, u) :: rest) = true)
    (hwf' : Memory.wfFrom low ((k', u') :: rest') = true)
    (hread : ∀ a, a < Config.memSize → Memory.read ((k, u) :: rest) a = Memory.read ((k', u') :: rest') a) : k' ≤ k := by
  obtain ⟨-, hk, hu, -⟩ := wfFrom_cons.1 hwf
  obtain ⟨-, hk', hu', hrest'⟩ := wfFrom_cons.1 hwf'
  by_contra hlt
  have habove : Memory.wfFrom k' ((k', u') :: rest') = true := wfFrom_cons.2 ⟨le_rfl, hk', hu', hrest'⟩
  have hzero : u = Memory.unlisted := by
    rw [← read_of_wfFrom habove (Nat.not_le.1 hlt), ← hread k hk, read_cons_self]
  exact hu hzero

/-- Below the tail's addresses the tail reads 0, above the first cell it reads as the whole. -/
theorem read_tail (hrest : Memory.wfFrom (k + 1) rest = true) (a : Nat) :
    rest.read a = if a = k then Memory.unlisted else Memory.read ((k, u) :: rest) a := by
  by_cases ha : a = k
  · rw [if_pos ha, ha, read_of_wfFrom hrest (Nat.lt_succ_self k)]
  · rw [if_neg ha, Memory.read, if_neg (Ne.symm ha)]

/-- Canonical memories that read alike are equal, by induction on the cells: the first cells have the same address and
byte, and the tails read alike. -/
theorem eq_of_read_eq (hwf : Memory.wfFrom low m = true) (hwf' : Memory.wfFrom low m' = true)
    (hread : ∀ a, a < Config.memSize → m.read a = m'.read a) : m = m' := by
  induction m generalizing low m' with
  | nil => exact (eq_nil_of_read_unlisted hwf' fun a ha => (hread a ha).symm).symm
  | cons c rest ih =>
    cases m' with
    | nil => exact eq_nil_of_read_unlisted hwf hread
    | cons c' rest' =>
      obtain ⟨k, u⟩ := c
      obtain ⟨k', u'⟩ := c'
      obtain rfl : k = k' := Nat.le_antisymm
        (first_le_of_read_eq hwf' hwf fun a ha => (hread a ha).symm) (first_le_of_read_eq hwf hwf' hread)
      obtain ⟨-, hk, -, hrest⟩ := wfFrom_cons.1 hwf
      obtain ⟨-, -, -, hrest'⟩ := wfFrom_cons.1 hwf'
      obtain rfl : u = u' := by simpa only [read_cons_self] using hread k hk
      have htail : rest = rest' := ih hrest hrest' fun a ha => by
        rw [read_tail (u := u) hrest, read_tail (u := u) hrest', hread a ha]
      rw [htail]

end Memory

/-- Settles O43: the canonical form from address 0 on is the case that the induction over the lists proves. -/
theorem canonicalMemoriesThatReadAlikeAreEqual : Obligations.CanonicalMemoriesThatReadAlikeAreEqual := by
  unfold Obligations.CanonicalMemoriesThatReadAlikeAreEqual
  exact fun m m' hwf hwf' hread => Memory.eq_of_read_eq hwf hwf' hread

/-- The snapshot has every byte at its address. -/
theorem snapshot_memory_getElem? (s : State) (a : Addr) : (snapshot s).memory[a.toNat]? = some (memRead s a) := by
  have ha : a.toNat < 256 := a.isLt
  rw [Vector.getElem?_eq_getElem ha, snapshot, Vector.getElem_ofFn]
  rfl

theorem snapshot_registers_getElem? (s : State) (r : Reg) :
    (snapshot s).registers[r.toNat]? = some (readReg s r) :=
  Vector.getElem?_eq_getElem r.isLt

theorem memRead_eq_of_snapshot_eq {s s' : State} (h : snapshot s = snapshot s') (a : Addr) :
    memRead s a = memRead s' a := by
  have hget := snapshot_memory_getElem? s a
  rw [h, snapshot_memory_getElem?] at hget
  exact (Option.some.inj hget).symm

theorem mem_eq_of_snapshot_eq {s s' : State} (hwf : s.mem.wf = true) (hwf' : s'.mem.wf = true)
    (h : snapshot s = snapshot s') : s.mem = s'.mem := by
  refine Memory.eq_of_read_eq hwf hwf' fun a ha => ?_
  have hread := memRead_eq_of_snapshot_eq h (BitVec.ofNat 8 a)
  rwa [memRead, memRead, BitVec.toNat_ofNat, Nat.mod_eq_of_lt ha] at hread

theorem eq_of_snapshot_eq_of_status_eq {s s' : State} (hwf : s.mem.wf = true) (hwf' : s'.mem.wf = true)
    (hsnap : snapshot s = snapshot s') (hstatus : status s = status s') : s = s' := by
  have hmem := mem_eq_of_snapshot_eq hwf hwf' hsnap
  have hpc : s.pc = s'.pc := congrArg Snapshot.pc hsnap
  have hir : s.ir = s'.ir := congrArg Snapshot.ir hsnap
  have hx : s.x = s'.x := congrArg Snapshot.registers hsnap
  cases s
  cases s'
  simp only [State.mk.injEq]
  exact ⟨hpc, hir, hx, hmem, hstatus⟩

/-- Settles O38: index by index what the host reads, and canonical memory follows from its bytes. -/
theorem snapshotAndStatusShowTheWholeState : Obligations.SnapshotAndStatusShowTheWholeState := by
  unfold Obligations.SnapshotAndStatusShowTheWholeState
  exact ⟨fun s => ⟨rfl, rfl, snapshot_registers_getElem? s, snapshot_memory_getElem? s, rfl⟩,
    fun s s' hwf hwf' hsnap hstatus => eq_of_snapshot_eq_of_status_eq hwf hwf' hsnap hstatus⟩

end Sys2Proof.Machine
end
